-- ==== Sys2Proof/Word.lean ====
section
/-! DEFINITION. The one data width of the engine: the byte (00_scope.md R6). -/

namespace Sys2Proof

/-- A byte: 8 bits, an unsigned number 0..255 (R6). -/
abbrev Byte := BitVec 8

end Sys2Proof
end

