-- ==== Sys2Proof/Config.lean ====
section
/-! DEFINITION. The parameters of 00_scope.md R5: the fixed ones as numbers, the open ones as opaque constants that no proof
can look into. -/

namespace Sys2Proof

/-- `CAPACITY`: cells of each ring buffer (R5). -/
def Config.capacity : Nat := 256

/-- `BROADCAST_ID`, the id no device replies to (R5, R73). -/
def Config.broadcastId : Byte := 0xFE#8

/-- One byte of `SYNC`, the marker being this byte twice (R5, R72). -/
def Config.syncByte : Byte := 0xFF#8

/-- `FIXED_REPLY_BYTES`: a status packet without parameters (R5, R133). -/
def Config.fixedReplyBytes : Nat := 6

/-- `MAX_PARAMS_TX`: the largest parameter count of TRANSMIT (R5, R79). -/
def Config.maxParamsTx : Nat := 249

/-- `MAX_PARAMS_RX`: the largest `parameterLength` of RECEIVE (R5, R79). -/
def Config.maxParamsRx : Nat := 249

/-- The largest parameter count FRAME is defined for: the length byte is 255 there (R79, R102). -/
def Config.maxParamsFrame : Nat := 253

/-- The largest value `cnt` ever takes, `6 + 255` (R25). -/
def Config.maxCounter : Nat := 261

/-- The OPEN parameter `TIMEOUT_ITERATIONS` less one (R5, R162, D6): any value that makes the parameter positive and lets it
fit the 32 bits of `rxTimeout`. Free value: log 8. -/
opaque Config.timeoutIterationsLessOne : Fin 4294967295

/-- `TIMEOUT_ITERATIONS`: a positive number of 32 bits (R5, R162). -/
def Config.timeoutIterations : Nat := Config.timeoutIterationsLessOne.val + 1

/-- The OPEN parameter `REPLY_BYTES_OTHER(code)`: the size of the reply a unicast request with a code without a stated reply
size brings (R5, R133, R144, D9). It is at most the largest value R25 lets `cnt` take. Free value: log 7. -/
opaque Config.replyBytesOther : Byte → Fin 262

end Sys2Proof
end

