-- ==== Sys2Proof/Machine/Framing.lean ====
section
/-! DEFINITION. The two pure functions of the block, checksum and frame (40_checksum_framing.md), and the wire instruction codes
(30_encoding.md R75). They know nothing of the state; the decoder, the encoder and the operations share them. -/

namespace Sys2Proof.Machine

/-- The sum of a byte sequence modulo 256, in an 8-bit accumulator (R100). -/
def byteSum (bs : List Byte) : Byte := bs.foldl (· + ·) 0#8

/-- CHECKSUM: the bitwise complement of the sum of id, length, instruction (or error) byte and parameters modulo 256
(R76, R100). -/
def checksumByte (id length instruction : Byte) (parameters : List Byte) : Byte :=
  ~~~(id + length + instruction + byteSum parameters)

/-- The length field of a packet with `n` parameters: `n + 2` (R74, 90_conflicts.md C1). -/
def lengthByte (n : Nat) : Byte := BitVec.ofNat 8 (n + 2)

/-- FRAME: marker, id, length, instruction, parameters, checksum (R70, R102). A status packet is the same frame with the error
byte in the place of the instruction (R71). -/
def frameBytes (id instruction : Byte) (parameters : List Byte) : List Byte :=
  [Config.syncByte, Config.syncByte, id, lengthByte parameters.length, instruction] ++ parameters ++
    [checksumByte id (lengthByte parameters.length) instruction parameters]

/-- The wire codes of R75. -/
def pingCode : Byte := 0x01#8
def readDataCode : Byte := 0x02#8
def writeDataCode : Byte := 0x03#8
def regWriteCode : Byte := 0x04#8
def actionCode : Byte := 0x05#8
def resetCode : Byte := 0x06#8
def syncWriteCode : Byte := 0x83#8
def syncRegWriteCode : Byte := 0x84#8

end Sys2Proof.Machine
end

