-- ==== Sys2Proof/Syntax.lean ====
section
/-! DEFINITION. The instructions: one constructor per row of spec/opcode_table.json (eight wire codes, nine operations), and the
reasons a byte string is no instruction. -/

namespace Sys2Proof

/-- The buffer operand of the RB operations, the port's `bufsel`: 0 is `tx`, 1 is `rx` (R83, R85). -/
inductive Buf where
  | tx
  | rx
deriving DecidableEq, Repr

/-- An instruction of the engine: an operation of the command port (R83, R85), or a wire instruction code with the target and the
parameters of the packet that carries it (R70, R75). -/
inductive Instr where
  /-- PING, code `0x01` (R136). -/
  | ping (targetId : Byte) (parameters : List Byte)
  /-- READ_DATA, code `0x02` (R137). -/
  | readData (targetId : Byte) (parameters : List Byte)
  /-- WRITE_DATA, code `0x03` (R138). -/
  | writeData (targetId : Byte) (parameters : List Byte)
  /-- REG_WRITE, code `0x04` (R139). -/
  | regWrite (targetId : Byte) (parameters : List Byte)
  /-- ACTION, code `0x05` (R140). -/
  | action (targetId : Byte) (parameters : List Byte)
  /-- RESET, code `0x06`: a request to a device, not a reset of the block (R141). -/
  | reset (targetId : Byte) (parameters : List Byte)
  /-- SYNC_WRITE, code `0x83` (R142). -/
  | syncWrite (targetId : Byte) (parameters : List Byte)
  /-- SYNC_REG_WRITE, code `0x84` (R143). -/
  | syncRegWrite (targetId : Byte) (parameters : List Byte)
  /-- CHECKSUM, operation 0 (R100). -/
  | checksum (id length instruction : Byte) (parameters : List Byte)
  /-- FRAME, operation 1 (R102). -/
  | frame (id instruction : Byte) (parameters : List Byte)
  /-- RB_OCCUPIED, operation 2 (R110). -/
  | rbOccupied (buf : Buf)
  /-- RB_FREE, operation 3 (R111). -/
  | rbFree (buf : Buf)
  /-- RB_PUSH, operation 4 (R112). -/
  | rbPush (buf : Buf) (b : Byte)
  /-- RB_POP, operation 5 (R113). -/
  | rbPop (buf : Buf)
  /-- RB_CLEAR, operation 6 (R114). -/
  | rbClear (buf : Buf)
  /-- TRANSMIT, operation 7 (R130). -/
  | transmit (targetId instruction : Byte) (parameters : List Byte)
  /-- RECEIVE, operation 8 (R160). -/
  | receive (expectedId : Byte) (parameterLength : Nat)
deriving DecidableEq, Repr

/-- Why a command is no instruction. -/
inductive DecodeError where
  /-- The command has no byte at all. -/
  | empty
  /-- The operation select is one of the reserved `0x9..0xF` (R81, R85). -/
  | opReserved (op : Nat)
  /-- The bits 7..5 of the select byte are not zero (log 2). -/
  | reservedBits
  /-- The operation's argument bytes are too few or too many (log 2). -/
  | badArguments (op : Nat)
  /-- A packet that ends before its checksum (R70). -/
  | shortPacket
  /-- A packet whose second byte is not `0xFF` (R70, R72). -/
  | badSync
  /-- A packet whose length byte is not its parameter count plus 2 (R74). -/
  | badLength
  /-- A packet whose last byte is not the checksum of the others (R76). -/
  | badChecksum
  /-- A packet whose byte 4 is none of the eight wire codes (R75, R81). -/
  | unknownCode (code : Byte)
deriving DecidableEq, Repr

end Sys2Proof
end

