-- ==== Sys2Proof/WellFormed.lean ====
section
/-! DEFINITION. Which instructions have an encoding. -/

namespace Sys2Proof

/-- An instruction packet counts its parameters in one byte, so it carries at most 253 (R74); the port's byte for RECEIVE's
`parameterLength` holds at most 255 (log 2). The other operands are bytes, or byte sequences of any length. What an operation
admits of them is for its meaning to say (R102, R145, R160). -/
def WellFormed : Instr → Bool
  | .ping _ ps => ps.length ≤ Config.maxParamsFrame
  | .readData _ ps => ps.length ≤ Config.maxParamsFrame
  | .writeData _ ps => ps.length ≤ Config.maxParamsFrame
  | .regWrite _ ps => ps.length ≤ Config.maxParamsFrame
  | .action _ ps => ps.length ≤ Config.maxParamsFrame
  | .reset _ ps => ps.length ≤ Config.maxParamsFrame
  | .syncWrite _ ps => ps.length ≤ Config.maxParamsFrame
  | .syncRegWrite _ ps => ps.length ≤ Config.maxParamsFrame
  | .checksum _ _ _ _ => true
  | .frame _ _ _ => true
  | .rbOccupied _ => true
  | .rbFree _ => true
  | .rbPush _ _ => true
  | .rbPop _ => true
  | .rbClear _ => true
  | .transmit _ _ _ => true
  | .receive _ m => m ≤ 255

end Sys2Proof
end

