-- ==== Sys2Proof/Decode.lean ====
section
/-! DEFINITION. The bytes of a command, both ways. A command is one byte string the caller presents. It has one of two forms, told
apart by the first byte:

* a command-port word (30_encoding.md R85): the select byte, `op` in bits 3..0, `bufsel` in bit 4, bits 7..5 zero, then the
  operation's arguments in the order of R83, one byte each, a byte sequence last and to the end of the command (log 2);
* an instruction packet (30_encoding.md R70), which begins with `0xFF`: the request to send that packet (log 3). -/

namespace Sys2Proof

/-- `bufsel` 0 is `tx`, 1 is `rx` (R85). -/
def bufOfBit (b : Bool) : Buf := if b then .rx else .tx

/-- The buffer select bit of a buffer (R85). -/
def bitOfBuf : Buf → Bool
  | .tx => false
  | .rx => true

/-- The wire instruction with this code, target and parameters, if the code is one of the eight of R75. -/
def wireInstr (code targetId : Byte) (ps : List Byte) : Except DecodeError Instr :=
  if code = Machine.pingCode then .ok (.ping targetId ps)
  else if code = Machine.readDataCode then .ok (.readData targetId ps)
  else if code = Machine.writeDataCode then .ok (.writeData targetId ps)
  else if code = Machine.regWriteCode then .ok (.regWrite targetId ps)
  else if code = Machine.actionCode then .ok (.action targetId ps)
  else if code = Machine.resetCode then .ok (.reset targetId ps)
  else if code = Machine.syncWriteCode then .ok (.syncWrite targetId ps)
  else if code = Machine.syncRegWriteCode then .ok (.syncRegWrite targetId ps)
  else .error (.unknownCode code)

/-- An instruction packet, from the byte after the first `0xFF` on (R70): second marker byte, id, length, code, then the
parameters and, last, the checksum. -/
def decodePacket : List Byte → Except DecodeError Instr
  | sync1 :: id :: length :: code :: last :: more =>
    let ps := (last :: more).dropLast
    let c := (last :: more).getLast (List.cons_ne_nil last more)
    if sync1 ≠ Config.syncByte then .error .badSync
    else if length.toNat ≠ ps.length + 2 then .error .badLength
    else if c ≠ Machine.checksumByte id length code ps then .error .badChecksum
    else wireInstr code id ps
  | _ => .error .shortPacket

/-- The operation `op` of the command port with buffer select `buf` and argument bytes (R83, R85). -/
def decodeOperation (op : Nat) (buf : Buf) (args : List Byte) : Except DecodeError Instr :=
  match op, args with
  | 0, id :: length :: instruction :: ps => .ok (.checksum id length instruction ps)
  | 1, id :: instruction :: ps => .ok (.frame id instruction ps)
  | 2, [] => .ok (.rbOccupied buf)
  | 3, [] => .ok (.rbFree buf)
  | 4, [b] => .ok (.rbPush buf b)
  | 5, [] => .ok (.rbPop buf)
  | 6, [] => .ok (.rbClear buf)
  | 7, targetId :: instruction :: ps => .ok (.transmit targetId instruction ps)
  | 8, [expectedId, m] => .ok (.receive expectedId m.toNat)
  | op, _ => if 9 ≤ op then .error (.opReserved op) else .error (.badArguments op)

/-- A command-port word: the select byte, then the arguments (R85, log 2). -/
def decodeCommand (select : Byte) (args : List Byte) : Except DecodeError Instr :=
  if select.extractLsb' 5 3 ≠ 0#3 then .error .reservedBits
  else decodeOperation (select.extractLsb' 0 4).toNat (bufOfBit (select.getLsbD 4)) args

/-- The decoder: total on any bytes. -/
def decode : List Byte → Except DecodeError Instr
  | [] => .error .empty
  | b :: rest => if b = Config.syncByte then decodePacket rest else decodeCommand b rest

/-- The operation select of an instruction that is an operation of the port (R85). -/
def opSelect : Instr → Option Nat
  | .checksum _ _ _ _ => some 0x0
  | .frame _ _ _ => some 0x1
  | .rbOccupied _ => some 0x2
  | .rbFree _ => some 0x3
  | .rbPush _ _ => some 0x4
  | .rbPop _ => some 0x5
  | .rbClear _ => some 0x6
  | .transmit _ _ _ => some 0x7
  | .receive _ _ => some 0x8
  | .ping _ _ | .readData _ _ | .writeData _ _ | .regWrite _ _ | .action _ _ | .reset _ _ | .syncWrite _ _
  | .syncRegWrite _ _ => none

/-- The wire code of an instruction that is one (R75). -/
def wireCode : Instr → Option Byte
  | .ping _ _ => some Machine.pingCode
  | .readData _ _ => some Machine.readDataCode
  | .writeData _ _ => some Machine.writeDataCode
  | .regWrite _ _ => some Machine.regWriteCode
  | .action _ _ => some Machine.actionCode
  | .reset _ _ => some Machine.resetCode
  | .syncWrite _ _ => some Machine.syncWriteCode
  | .syncRegWrite _ _ => some Machine.syncRegWriteCode
  | .checksum _ _ _ _ | .frame _ _ _ | .rbOccupied _ | .rbFree _ | .rbPush _ _ | .rbPop _ | .rbClear _ | .transmit _ _ _
  | .receive _ _ => none

/-- The select byte: `op` in bits 3..0, `bufsel` in bit 4 (R85, log 2). -/
def selectByte (op : Nat) (buf : Buf) : Byte := 0#3 ++ (BitVec.ofBool (bitOfBuf buf) ++ BitVec.ofNat 4 op)

/-- The encoder: the bytes of a well-formed instruction. A wire instruction's bytes are its instruction packet (R70). -/
def encode : Instr → List Byte
  | .ping t ps => Machine.frameBytes t Machine.pingCode ps
  | .readData t ps => Machine.frameBytes t Machine.readDataCode ps
  | .writeData t ps => Machine.frameBytes t Machine.writeDataCode ps
  | .regWrite t ps => Machine.frameBytes t Machine.regWriteCode ps
  | .action t ps => Machine.frameBytes t Machine.actionCode ps
  | .reset t ps => Machine.frameBytes t Machine.resetCode ps
  | .syncWrite t ps => Machine.frameBytes t Machine.syncWriteCode ps
  | .syncRegWrite t ps => Machine.frameBytes t Machine.syncRegWriteCode ps
  | .checksum id length instruction ps => selectByte 0x0 .tx :: id :: length :: instruction :: ps
  | .frame id instruction ps => selectByte 0x1 .tx :: id :: instruction :: ps
  | .rbOccupied buf => [selectByte 0x2 buf]
  | .rbFree buf => [selectByte 0x3 buf]
  | .rbPush buf b => [selectByte 0x4 buf, b]
  | .rbPop buf => [selectByte 0x5 buf]
  | .rbClear buf => [selectByte 0x6 buf]
  | .transmit t code ps => selectByte 0x7 .tx :: t :: code :: ps
  | .receive e m => [selectByte 0x8 .tx, e, BitVec.ofNat 8 m]

/-- Is this number one of the eight wire codes of R75? -/
def isWireCode (w : Nat) : Bool := (1 ≤ w && w ≤ 6) || w == 0x83 || w == 0x84

/-- The parameters of a packet whose operands are all zero, as R78 lays them out: READ_DATA and SYNC_WRITE have two leading
parameters, WRITE_DATA one, the others none. -/
def zeroParams (w : Nat) : List Byte :=
  if w = 0x02 || w = 0x83 then [0#8, 0#8] else if w = 0x03 then [0#8] else []

/-- The argument bytes of an operation whose operands are all zero (R83). -/
def zeroArgs (op : Nat) : List Byte :=
  match op with
  | 0 => [0#8, 0#8, 0#8]
  | 1 | 7 | 8 => [0#8, 0#8]
  | 4 => [0#8]
  | _ => []

/-- The command whose table bits are `w` and whose operands are zero. The table gives a wire code 8 bits, byte 4 of its packet, and
an operation 4 bits, the field `op` of the port; a number both columns hold (1 to 6) is read by its width (log 4). -/
def tableMessage (nbits w : Nat) : List Byte :=
  if 4 < nbits && isWireCode w then Machine.frameBytes 0#8 (BitVec.ofNat 8 w) (zeroParams w)
  else BitVec.ofNat 8 w :: zeroArgs w

/-- The instruction the decoder reads from a row of the opcode table. -/
def decodeTableWord (nbits w : Nat) : Option Instr := (decode (tableMessage nbits w)).toOption

end Sys2Proof
end

