-- ==== Sys2Proof/Machine/State.lean ====
section
/-! DEFINITION. The state of the engine (10_state.md R20 to R35), the line beside it, and the reasons a step can stop. -/

namespace Sys2Proof.Machine

/-- The content of a buffer's array: the written cells, by rising cell address. A cell not listed holds no value (R35, R251). -/
abbrev Memory := List Host.Cell

/-- A ring buffer (R21, R22): the array and the two 8-bit cursors. -/
structure RingBuffer where
  data     : Memory
  readPos  : BitVec 8
  writePos : BitVec 8
deriving DecidableEq, Repr

/-- Where RECEIVE is in its sequence (R27). -/
inductive RxState where
  | idle
  | collect
  | sync
  | id
  | length
  | error
  | payload
  | checksum
deriving DecidableEq, Repr

/-- Where TRANSMIT is in its sequence (R28). -/
inductive TxState where
  | idle
  | waitCounter
  | waitSpace
  | count
  | push
  | drain
deriving DecidableEq, Repr

/-- The outcome of a RECEIVE: a plain variant, exactly one per call (R80). -/
inductive ErrorOutcome where
  | noError
  | generalError
  | timeout
  | headerError
  | idError
  | lengthError
  | checksumError
deriving DecidableEq, Repr

/-- What the command port answers when an operation completes (R30, R83, R85; log 14). -/
inductive Answer where
  /-- No operation has completed yet. -/
  | nothing
  /-- TRANSMIT, RB_PUSH and RB_CLEAR deliver no result. -/
  | noResult
  /-- CHECKSUM delivers a byte. -/
  | checksum (value : Byte)
  /-- FRAME delivers a byte sequence. -/
  | frame (bytes : List Byte)
  /-- RB_OCCUPIED delivers a number 0..255. -/
  | occupied (count : BitVec 8)
  /-- RB_FREE delivers a number 1..256, in 9 bits (D23). -/
  | free (count : BitVec 9)
  /-- RB_POP delivers a byte. -/
  | popped (value : Byte)
  /-- RECEIVE delivers its triple, which stands in the result registers. -/
  | received
deriving DecidableEq, Repr

/-- One byte the line will have received: it becomes available after `silentPolls` polls of `rx_available` that find nothing
(R31, R53, R179; log 5). -/
structure Arrival where
  silentPolls : Nat
  byte        : Byte
deriving DecidableEq, Repr

/-- When the line accepts the next byte: after that many polls of `tx_ready` that find it 0, or never (R31, R53, R135; log 5). -/
inductive TxWait where
  | after (polls : Nat)
  | never
deriving DecidableEq, Repr

/-- The line: its future answers, as plain data, and the record of what it was handed (R4, R228; log 5, log 6). -/
structure Line where
  /-- The bytes `LineRead` will return, oldest first; when none is left the line is silent. -/
  incoming : List Arrival
  /-- The waits before the next bytes the engine writes; when none is left the line is ready at once. -/
  txWaits  : List TxWait
  /-- The bytes handed to the line so far, oldest first. -/
  sent     : List Byte
deriving DecidableEq, Repr

/-- The complete state of the block (R20), the command port's answer, the line and the caller's commands. -/
structure State where
  /-- The transmit ring buffer (R21). -/
  tx : RingBuffer
  /-- The receive ring buffer (R22). -/
  rx : RingBuffer
  /-- The outstanding-response counter: bytes still expected from the bus (R24). -/
  cnt : BitVec 16
  /-- The reception timeout down-counter (R26). -/
  rxTimeout : BitVec 32
  /-- The sequencer of RECEIVE (R27). -/
  rxState : RxState
  /-- The sequencer of TRANSMIT (R28). -/
  txState : TxState
  /-- Parser latch: the id the reply must carry (R29). -/
  rxExpectedId : Byte
  /-- Parser latch: the number of payload bytes the reply must carry (R29). -/
  rxParamLen : Nat
  /-- Parser latch: the id read (R29). -/
  rxId : Byte
  /-- Parser latch: the length read (R29). -/
  rxLen : Byte
  /-- Parser latch: the error byte read (R29). -/
  rxErr : Byte
  /-- Parser latch: the running sum modulo 256 (R29). -/
  rxSum : Byte
  /-- Parser latch: the count of payload bytes read so far (R29). -/
  rxIndex : Nat
  /-- Parser latch: the payload bytes read so far (R29). -/
  rxPayload : List Byte
  /-- Result register of RECEIVE (R30). -/
  outcome : ErrorOutcome
  /-- Result register of RECEIVE: the device's status byte (R30). -/
  errorByte : Byte
  /-- Result register of RECEIVE: the payload (R30). -/
  parametersOut : List Byte
  /-- What the port answered last (R83, R85). -/
  answer : Answer
  /-- The line beside the block (R4, R31, R32). -/
  line : Line
  /-- The commands the caller has not seen completed, oldest first; the first is on the port (R4; log 4). -/
  caller : List (List Byte)
deriving DecidableEq, Repr

/-- The reasons an operation ends in a fault (R8, R224). The machine does not continue. -/
inductive Fault where
  /-- RECEIVE needs a byte in this state and `rx` is empty (R173). Safe: the spec gives no behaviour here. -/
  | rxUnderrun (at_ : RxState)
  /-- RECEIVE: a byte arrives while `rx` accounts for 255 (R174). Safe: the spec gives no behaviour here. -/
  | rxOverrun
  /-- RB_POP at occupancy 0 (R117). Safe: the spec declines the mechanical result. -/
  | rbUnderrun
  /-- RB_PUSH, or a push of TRANSMIT, at occupancy 255 (R117; log 12). Safe: the spec declines the mechanical result. -/
  | rbOverrun
  /-- A cell of this buffer that no push has written is read, by RB_POP, TRANSMIT or RECEIVE (R35, R251, U16; log 10). Safe: the
  cell holds no value. -/
  | cellUnwritten (buf : Buf)
deriving DecidableEq, Repr

/-- The reasons a call gets no meaning (R8, R224). -/
inductive Refusal where
  /-- An instruction without a meaning in `exec`. Safe. -/
  | notModelled (mnemonic : String)
  /-- TRANSMIT, or a wire instruction, outside the domain of R145. Safe: the spec refuses it. -/
  | txDomain
  /-- RECEIVE with `parameterLength` above 249 (R160). Safe: the spec refuses it. -/
  | rxDomain
  /-- FRAME with more than 253 parameters (R102). Safe: the spec refuses it. -/
  | frameDomain
  /-- The reserved operation selects `0x9..0xF`, by the command port (R85). Safe: the spec refuses them. -/
  | opReserved
  /-- A command that is no operation and no instruction packet, by the command port (log 2, log 3). Safe: it has no meaning. -/
  | malformed (why : DecodeError)
deriving DecidableEq, Repr

/-- An empty ring buffer whose cells hold no value. -/
def RingBuffer.reset : RingBuffer := { data := [], readPos := 0#8, writePos := 0#8 }

/-- The line beside a block that comes out of reset: silent and ready, nothing sent (log 5, log 6). -/
def Line.reset : Line := { incoming := [], txWaits := [], sent := [] }

/-- The state after reset (R35, R250): cursors 0, counter 0, both sequencers idle, no cell written. The latches, the result
registers and `rxTimeout` are unspecified there; the values they hold here are the model's (log 9). No command is waiting: after
reset the block waits for the first operation (R250; log 4). -/
def State.reset : State where
  tx := RingBuffer.reset
  rx := RingBuffer.reset
  cnt := 0#16
  rxTimeout := 0#32
  rxState := .idle
  txState := .idle
  rxExpectedId := 0#8
  rxParamLen := 0
  rxId := 0#8
  rxLen := 0#8
  rxErr := 0#8
  rxSum := 0#8
  rxIndex := 0
  rxPayload := []
  outcome := .noError
  errorByte := 0#8
  parametersOut := []
  answer := .nothing
  line := Line.reset
  caller := []

end Sys2Proof.Machine
end

