-- ==== Sys2Proof/Machine/Flags.lean ====
section
/-! DEFINITION. The block's only flags, the two polled flags of the line (10_state.md R31), and the line primitives
(20_memory.md R53). No operation sets a flag. -/

namespace Sys2Proof.Machine

/-- `LineTxReady()`: the flag `tx_ready` (R31). -/
def Line.txReady (l : Line) : Bool :=
  match l.txWaits with
  | [] => true
  | .after k :: _ => k == 0
  | .never :: _ => false

/-- `LineRxAvailable()`: the flag `rx_available` (R31). Once 1 it stays 1 until a read (R53). -/
def Line.rxAvailable (l : Line) : Bool :=
  match l.incoming with
  | [] => false
  | a :: _ => a.silentPolls == 0

/-- The line after a poll of `rx_available` that found nothing: the next byte is one poll nearer (log 5). -/
def Line.silentPoll (l : Line) : Line :=
  match l.incoming with
  | [] => l
  | a :: more => { l with incoming := { a with silentPolls := a.silentPolls - 1 } :: more }

/-- `LineRead()`: the oldest unread byte, and the line without it. It is called only when `rx_available` is 1 (R53). -/
def Line.read (l : Line) : Option (Byte × Line) :=
  match l.incoming with
  | [] => none
  | a :: more => some (a.byte, { l with incoming := more })

/-- `wait until LineTxReady() = 1`: the line once it is ready, or nothing where it never is (R135). -/
def Line.awaitTxReady (l : Line) : Option Line :=
  match l.txWaits with
  | [] => some l
  | .after _ :: more => some { l with txWaits := .after 0 :: more }
  | .never :: _ => none

/-- `LineWrite(b)`: the byte is handed to the line exactly once. It is called only when `tx_ready` is 1 (R53). Nothing the block
sends is heard by the block (D19; log 13). -/
def Line.write (l : Line) (b : Byte) : Line :=
  { l with txWaits := l.txWaits.tail, sent := l.sent ++ [b] }

end Sys2Proof.Machine
end

