-- ==== Sys2Proof/Machine/Operands.lean ====
section
/-! DEFINITION. The operand forms: the buffer operand, the domain and the reply size of a TRANSMIT, and the numbers the spec gives
outcomes and sequencer states. -/

namespace Sys2Proof.Machine

/-- The buffer a buffer operand names (R85). -/
def State.buffer (s : State) : Buf → RingBuffer
  | .tx => s.tx
  | .rx => s.rx

/-- The state with the buffer that a buffer operand names replaced. -/
def State.withBuffer (s : State) (buf : Buf) (b : RingBuffer) : State :=
  match buf with
  | .tx => { s with tx := b }
  | .rx => { s with rx := b }

/-- `ReplyBytes(instruction, parameters)` of R133. The byte count of READ_DATA is its second parameter (R137); a READ_DATA
without one has no reply size. The size for the other codes is the open parameter (R144; log 7). -/
def replyBytes (code : Byte) (ps : List Byte) : Option Nat :=
  if code = pingCode ∨ code = writeDataCode then some Config.fixedReplyBytes
  else if code = readDataCode then ps[1]?.map fun byteCount => Config.fixedReplyBytes + byteCount.toNat
  else if code = syncWriteCode ∨ code = syncRegWriteCode then some 0
  else some (Config.replyBytesOther code).val

/-- What step 3 of TRANSMIT adds to the counter: nothing for the broadcast id, else the reply size (R133). -/
def expectedReply (targetId code : Byte) (ps : List Byte) : Option Nat :=
  if targetId = Config.broadcastId then some 0 else replyBytes code ps

/-- The domain of TRANSMIT (R145): a target other than `0xFF`, at most 249 parameters, and a reply size. -/
def txAdmitted (targetId code : Byte) (ps : List Byte) : Bool :=
  targetId != 0xFF#8 && ps.length ≤ Config.maxParamsTx && (expectedReply targetId code ps).isSome

/-- The numeric codes of the outcomes (R80, D4). -/
def ErrorOutcome.code : ErrorOutcome → Byte
  | .noError => 0x00#8
  | .generalError => 0x01#8
  | .timeout => 0x02#8
  | .headerError => 0x04#8
  | .idError => 0x08#8
  | .lengthError => 0x10#8
  | .checksumError => 0x20#8

/-- The numeric encoding of `rxState` (R86). -/
def RxState.code : RxState → BitVec 3
  | .idle => 0#3
  | .collect => 1#3
  | .sync => 2#3
  | .id => 3#3
  | .length => 4#3
  | .error => 5#3
  | .payload => 6#3
  | .checksum => 7#3

/-- The numeric encoding of `txState` (R86). -/
def TxState.code : TxState → BitVec 3
  | .idle => 0#3
  | .waitCounter => 1#3
  | .waitSpace => 2#3
  | .count => 3#3
  | .push => 4#3
  | .drain => 5#3

end Sys2Proof.Machine
end

