-- ==== Sys2Proof/Machine/Ops.lean ====
section
/-! DEFINITION. The named operations over memory, ring buffers and registers, the one error return of RECEIVE, and the command
port. -/

namespace Sys2Proof.Machine

/-- The outcome of an operation. -/
abbrev Result := Host.Outcome State Fault Refusal

/-- Go on with `k` where `o` is a state; a fault or a refusal ends the operation (R8). -/
def andThen (o : Result) (k : State → Result) : Result :=
  match o with
  | .next s => k s
  | .fault f => .fault f
  | .refused r => .refused r

/-! ### The arrays (20_memory.md R50) -/

/-- `buf.data[i]`: the byte of cell `a`, or nothing where no push has written it (R7, R251). -/
def Memory.read : Memory → Nat → Option Byte
  | [], _ => none
  | c :: m, a => if c.1 = a then some c.2 else Memory.read m a

/-- `buf.data[i] <- b` (R7): the cell's place in the rising order is kept. -/
def Memory.write : Memory → Nat → Byte → Memory
  | [], a, b => [(a, b)]
  | c :: m, a, b =>
    if a < c.1 then (a, b) :: c :: m
    else if a = c.1 then (a, b) :: m
    else c :: Memory.write m a b

/-- The canonical form: addresses strictly rising, each one of a cell 0..255 (R50). An unlisted cell holds no value, so no entry
can repeat what an unlisted cell reads as. -/
abbrev Memory.wf (m : Memory) : Prop :=
  m.Pairwise (fun c d => c.1 < d.1) ∧ ∀ c ∈ m, c.1 < Config.capacity

/-! ### Ring buffers (41_ring_buffer.md) -/

/-- `RB_OCCUPIED`: `(writePos - readPos) mod 256` (R23, R110). -/
def RingBuffer.occupied (b : RingBuffer) : BitVec 8 := b.writePos - b.readPos

/-- `RB_FREE`: `256 - RB_OCCUPIED`, in 9 bits (R23, R111). -/
def RingBuffer.free (b : RingBuffer) : BitVec 9 := 256#9 - b.occupied.setWidth 9

/-- The cell `k` places past the head, wrapping past cell 255 (R51): what a pop, or the scan of R165, looks at. -/
def RingBuffer.peek (b : RingBuffer) (k : Nat) : Option Byte := b.data.read (b.readPos + BitVec.ofNat 8 k).toNat

/-- `RB_PUSH` mechanically: write at `writePos`, then increment it modulo 256 (R112). -/
def RingBuffer.push (b : RingBuffer) (x : Byte) : RingBuffer :=
  { b with data := b.data.write b.writePos.toNat x, writePos := b.writePos + 1#8 }

/-- `RB_PUSH` with its precondition: nothing at occupancy 255 (R112, R117). -/
def RingBuffer.pushChecked (b : RingBuffer) (x : Byte) : Option RingBuffer :=
  if b.occupied = 255#8 then none else some (b.push x)

/-- The head passed over: `readPos` incremented modulo 256, the cell keeping its byte (R113). -/
def RingBuffer.skip (b : RingBuffer) : RingBuffer := { b with readPos := b.readPos + 1#8 }

/-- `RB_POP` mechanically: the byte at `readPos`, then `readPos` incremented modulo 256 (R113); nothing where the cell was never
written (R251). -/
def RingBuffer.pop (b : RingBuffer) : Option (Byte × RingBuffer) := (b.peek 0).map fun x => (x, b.skip)

/-- `RB_CLEAR`: both cursors 0, the cells as they were (R114). -/
def RingBuffer.clear (b : RingBuffer) : RingBuffer := { b with readPos := 0#8, writePos := 0#8 }

/-- Push a byte sequence, index 0 first, each push with its precondition (R134, R117; log 12). -/
def RingBuffer.pushAll : RingBuffer → List Byte → Option RingBuffer
  | b, [] => some b
  | b, x :: xs => match b.pushChecked x with
    | none => none
    | some b' => b'.pushAll xs

/-! ### Returns -/

/-- An operation completes: the port answers. -/
def State.answering (s : State) (a : Answer) : State := { s with answer := a }

/-- `rxState <- Idle ; return (o, e, p)`: RECEIVE delivers its triple in the result registers (R160, R175). -/
def State.rxReturn (s : State) (o : ErrorOutcome) (e : Byte) (p : List Byte) : State :=
  { s with rxState := .idle, outcome := o, errorByte := e, parametersOut := p, answer := .received }

/-- The clearing error return, this block's trap entry (R222): `RB_CLEAR(rx)`, then the outcome, with the error byte the outcome
carries and no parameters (R163, R167, R168, R169, R171, R175). Nothing is saved, no mode changes, and there is nothing to return
from (R223). The `HeaderError` return does not come here: it does not clear (R166). -/
def State.rxErrorReturn (s : State) (o : ErrorOutcome) (e : Byte) : State :=
  { s with rx := s.rx.clear }.rxReturn o e []

/-- RECEIVE latches its two arguments and begins to collect (R160, R176). -/
def State.rxStart (s : State) (expectedId : Byte) (m : Nat) : State :=
  { s with rxExpectedId := expectedId, rxParamLen := m, rxState := .collect }

/-! ### The command port (30_encoding.md R85) -/

/-- The command on the port: the caller's oldest that has not completed (R4; log 4). -/
def State.command (s : State) : Option (List Byte) := s.caller.head?

/-- A command the port gives no meaning (R81, R85). -/
def refuseCommand : DecodeError → Refusal
  | .opReserved _ => .opReserved
  | e => .malformed e

/-- The caller waits for an operation to complete before it issues the next (R4): the command leaves the port when both sequencers
are idle, and stays on it while a TRANSMIT is stuck in a wait (R8; log 11). -/
def State.retire (s : State) : State :=
  if s.txState = .idle ∧ s.rxState = .idle then { s with caller := s.caller.tail } else s

end Sys2Proof.Machine
end

