-- ==== Sys2Proof/Machine/Checksum.lean ====
section
/-! DEFINITION. CHECKSUM and FRAME (40_checksum_framing.md). -/

namespace Sys2Proof.Machine

/-- CHECKSUM (R100): total, reads and writes no state but the port's answer. -/
def execChecksum (id length instruction : Byte) (ps : List Byte) (s : State) : Result :=
  .next (s.answering (.checksum (checksumByte id length instruction ps)))

/-- FRAME (R102): defined for at most 253 parameters; it touches no buffer. -/
def execFrame (id instruction : Byte) (ps : List Byte) (s : State) : Result :=
  if ps.length ≤ Config.maxParamsFrame then .next (s.answering (.frame (frameBytes id instruction ps)))
  else .refused .frameDomain

end Sys2Proof.Machine
end

