-- ==== Sys2Proof/Machine/Receive.lean ====
section
/-! DEFINITION. RECEIVE (43_receive.md): the sequencer `rxState`, one definition per state of 10_state.md R27, following the
pseudocode of R160 and the transitions of R176. -/

namespace Sys2Proof.Machine

/-- The wait for one byte (R162), `rxTimeout` standing at the number given: poll, decrement, test. Either a poll finds a byte: the
value `rxTimeout` stands at then, the byte `LineRead` takes, and the line without it. Or the count comes to zero: the line after
the unsuccessful polls. -/
def awaitByte : Nat → Line → Except Line (Nat × Byte × Line)
  | 0, line => .error line
  | t + 1, line =>
    match line.rxAvailable, line.read with
    | true, some (b, rest) => .ok (t + 1, b, rest)
    | _, _ => awaitByte t line.silentPoll

/-- State `Collect`, with `owed` bytes still counted in `cnt` (R161): for each, load `rxTimeout` and wait (R162). A byte is pushed
into `rx` and counted off (R164), unless `rx` already accounts for 255 (R174). Silence is the Timeout return, which also zeroes
the counter (R163). -/
def rxCollect : Nat → State → Result
  | 0, s => .next { s with rxState := .sync }
  | owed + 1, s =>
    match awaitByte Config.timeoutIterations s.line with
    | .error line =>
      .next ({ s with line := line, rxTimeout := 0#32, cnt := 0#16 }.rxErrorReturn .timeout 0x00#8)
    | .ok (left, b, line) =>
      match s.rx.pushChecked b with
      | none => .fault .rxOverrun
      | some rx =>
        rxCollect owed { s with line := line, rxTimeout := BitVec.ofNat 32 left, rx := rx, cnt := s.cnt - 1#16 }

/-- State `Sync`, the header scan with `unread` bytes in `rx` (R165): a byte other than `0xFF` is popped; `0xFF` before another
byte is popped; `0xFF 0xFF` is the marker and both are popped; a lone last `0xFF` is kept. A scan that runs out is the
`HeaderError` return, which does not clear (R166). -/
def rxScan : Nat → State → Result
  | 0, s => .next (s.rxReturn .headerError 0x00#8 [])
  | unread + 1, s =>
    match s.rx.peek 0 with
    | none => .fault (.cellUnwritten .rx)
    | some a =>
      if a ≠ Config.syncByte then rxScan unread { s with rx := s.rx.skip }
      else if unread = 0 then .next (s.rxReturn .headerError 0x00#8 [])
      else match s.rx.peek 1 with
        | none => .fault (.cellUnwritten .rx)
        | some b =>
          if b = Config.syncByte then .next { s with rx := s.rx.skip.skip, rxState := .id }
          else rxScan unread { s with rx := s.rx.skip }

/-- `Next()` (R160, R173): the next byte of `rx`, popped; nothing to read is the fault `RxUnderrun` with the state. -/
def rxNext (s : State) (k : Byte → State → Result) : Result :=
  if s.rx.occupied = 0#8 then .fault (.rxUnderrun s.rxState)
  else match s.rx.pop with
    | none => .fault (.cellUnwritten .rx)
    | some (b, rx) => k b { s with rx := rx }

/-- State `Id` (R167). -/
def rxReadId (s : State) : Result :=
  rxNext s fun b s =>
    let s := { s with rxId := b, rxSum := b }
    .next (if b ≠ s.rxExpectedId then s.rxErrorReturn .idError 0x00#8 else { s with rxState := .length })

/-- State `Length`: the byte against `2 + parameterLength`, without wrap-around (R168, D13). -/
def rxReadLength (s : State) : Result :=
  rxNext s fun b s =>
    let s := { s with rxLen := b, rxSum := s.rxSum + b }
    .next (if b.toNat ≠ 2 + s.rxParamLen then s.rxErrorReturn .lengthError 0x00#8 else { s with rxState := .error })

/-- State `Error`: the one return that carries a byte (R169). -/
def rxReadError (s : State) : Result :=
  rxNext s fun b s =>
    let s := { s with rxErr := b, rxSum := s.rxSum + b }
    .next (if b ≠ 0x00#8 then s.rxErrorReturn .generalError b
      else { s with rxState := .payload, rxIndex := 0, rxPayload := [] })

/-- State `Payload`, with that many payload bytes to come (R170). -/
def rxReadPayload : Nat → State → Result
  | 0, s => .next { s with rxState := .checksum }
  | more + 1, s =>
    rxNext s fun b s =>
      rxReadPayload more
        { s with rxPayload := s.rxPayload ++ [b], rxSum := s.rxSum + b, rxIndex := s.rxIndex + 1 }

/-- State `Checksum`: the byte against the complement of the running sum (R171); success does not clear `rx` (R172). -/
def rxReadChecksum (s : State) : Result :=
  rxNext s fun c s =>
    .next (if c ≠ ~~~s.rxSum then s.rxErrorReturn .checksumError 0x00#8
      else s.rxReturn .noError 0x00#8 s.rxPayload)

/-- The engine in one state of the sequencer, until it leaves the state (R176). -/
def rxTick (s : State) : Result :=
  match s.rxState with
  | .idle => .next s
  | .collect => rxCollect s.cnt.toNat s
  | .sync => rxScan s.rx.occupied.toNat s
  | .id => rxReadId s
  | .length => rxReadLength s
  | .error => rxReadError s
  | .payload => rxReadPayload (s.rxParamLen - s.rxIndex) s
  | .checksum => rxReadChecksum s

/-- That many states of the sequencer, one after the other. -/
def rxRun : Nat → State → Result
  | 0, s => .next s
  | k + 1, s => andThen (rxTick s) (rxRun k)

/-- RECEIVE (R160): refused for more than 249 parameters, else the seven states from `Collect` on. -/
def receive (expectedId : Byte) (m : Nat) (s : State) : Result :=
  if m ≤ Config.maxParamsRx then rxRun 7 (s.rxStart expectedId m) else .refused .rxDomain

/-- RECEIVE, operation 8 (R160). -/
def execReceive (expectedId : Byte) (m : Nat) (s : State) : Result := receive expectedId m s

end Sys2Proof.Machine
end

