-- ==== Sys2Proof/Machine/RingBuffer.lean ====
section
/-! DEFINITION. The five ring-buffer operations of the command port (41_ring_buffer.md). -/

namespace Sys2Proof.Machine

/-- RB_OCCUPIED (R110). -/
def execRbOccupied (buf : Buf) (s : State) : Result :=
  .next (s.answering (.occupied (s.buffer buf).occupied))

/-- RB_FREE (R111). -/
def execRbFree (buf : Buf) (s : State) : Result :=
  .next (s.answering (.free (s.buffer buf).free))

/-- RB_PUSH (R112); at occupancy 255 the precondition is broken (R117). -/
def execRbPush (buf : Buf) (x : Byte) (s : State) : Result :=
  match (s.buffer buf).pushChecked x with
  | none => .fault .rbOverrun
  | some b => .next ((s.withBuffer buf b).answering .noResult)

/-- RB_POP (R113); at occupancy 0 the precondition is broken (R117), and a cell never written holds no value (R251). -/
def execRbPop (buf : Buf) (s : State) : Result :=
  if (s.buffer buf).occupied = 0#8 then .fault .rbUnderrun
  else match (s.buffer buf).pop with
    | none => .fault (.cellUnwritten buf)
    | some (x, b) => .next ((s.withBuffer buf b).answering (.popped x))

/-- RB_CLEAR (R114): total; `cnt` is not touched. -/
def execRbClear (buf : Buf) (s : State) : Result :=
  .next ((s.withBuffer buf (s.buffer buf).clear).answering .noResult)

end Sys2Proof.Machine
end

