-- ==== Sys2Proof/Machine/Transmit.lean ====
section
/-! DEFINITION. TRANSMIT (42_transmit.md): the sequencer `txState`, one definition per state of 10_state.md R28. The call's arguments
stay on the command port while the operation runs, so the states take them as arguments. -/

namespace Sys2Proof.Machine

/-- State `Drain` (R134, R135): while `tx` holds bytes (`left` of them), wait until the line is ready, then pop one and write it.
The wait before each byte, the first included, never times out: where the line is never ready the operation stays in `Drain`. When
`tx` is empty the operation returns. -/
def txDrain : Nat → State → Result
  | 0, s => .next ({ s with txState := .idle }.answering .noResult)
  | left + 1, s =>
    match s.line.awaitTxReady with
    | none => .next s
    | some line =>
      match s.tx.pop with
      | none => .fault (.cellUnwritten .tx)
      | some (b, tx) => txDrain left { s with tx := tx, line := line.write b }

/-- The engine in one state of the sequencer, until it leaves the state or is held by the state's wait (R130):
the gate (R131), the space wait (R132), the counter (R133), the push (R134), the drain (R135). -/
def txTick (targetId code : Byte) (ps : List Byte) (s : State) : Result :=
  match s.txState with
  | .idle => .next s
  | .waitCounter => .next (if s.cnt = 0#16 then { s with txState := .waitSpace } else s)
  | .waitSpace => .next (if ps.length + 6 ≤ s.tx.free.toNat then { s with txState := .count } else s)
  | .count =>
    .next { s with
      cnt := s.cnt + BitVec.ofNat 16 ((expectedReply targetId code ps).getD 0)
      txState := .push }
  | .push =>
    match s.tx.pushAll (frameBytes targetId code ps) with
    | none => .fault .rbOverrun
    | some tx => .next { s with tx := tx, txState := .drain }
  | .drain => txDrain s.tx.occupied.toNat s

/-- That many states of the sequencer, one after the other. -/
def txRun (targetId code : Byte) (ps : List Byte) : Nat → State → Result
  | 0, s => .next s
  | k + 1, s => andThen (txTick targetId code ps s) (txRun targetId code ps k)

/-- TRANSMIT (R130): refused outside its domain (R145), else the five states from `WaitCounter` on. A call found waiting in a state
goes on from there, its wait tested again (R7, R8; log 11). -/
def transmit (targetId code : Byte) (ps : List Byte) (s : State) : Result :=
  if txAdmitted targetId code ps then
    txRun targetId code ps 5 (if s.txState = .idle then { s with txState := .waitCounter } else s)
  else .refused .txDomain

/-- TRANSMIT, operation 7 (R130). -/
def execTransmit (targetId code : Byte) (ps : List Byte) (s : State) : Result := transmit targetId code ps s

end Sys2Proof.Machine
end

