-- ==== Sys2Proof/Machine/WireCodes.lean ====
section
/-! DEFINITION. The eight wire instruction codes (42_transmit.md, section 2): what TRANSMIT does with each. What a device does with
the packet is outside the block (30_encoding.md R75). -/

namespace Sys2Proof.Machine

/-- PING (R136): a unicast one adds 6 to the counter. -/
def execPing (targetId : Byte) (ps : List Byte) (s : State) : Result := transmit targetId pingCode ps s

/-- READ_DATA (R137): a unicast one adds 6 and its byte count, `parameters[1]`. -/
def execReadData (targetId : Byte) (ps : List Byte) (s : State) : Result := transmit targetId readDataCode ps s

/-- WRITE_DATA (R138): a unicast one adds 6 to the counter. -/
def execWriteData (targetId : Byte) (ps : List Byte) (s : State) : Result := transmit targetId writeDataCode ps s

/-- REG_WRITE (R139): a unicast one adds the open reply size (R144; log 7). -/
def execRegWrite (targetId : Byte) (ps : List Byte) (s : State) : Result := transmit targetId regWriteCode ps s

/-- ACTION (R140): a unicast one adds the open reply size (R144; log 7). -/
def execAction (targetId : Byte) (ps : List Byte) (s : State) : Result := transmit targetId actionCode ps s

/-- RESET (R141): a unicast one adds the open reply size (R144; log 7); the block itself is not reset. -/
def execReset (targetId : Byte) (ps : List Byte) (s : State) : Result := transmit targetId resetCode ps s

/-- SYNC_WRITE (R142): no addition to the counter, whatever the target. -/
def execSyncWrite (targetId : Byte) (ps : List Byte) (s : State) : Result := transmit targetId syncWriteCode ps s

/-- SYNC_REG_WRITE (R143): no addition to the counter, whatever the target. -/
def execSyncRegWrite (targetId : Byte) (ps : List Byte) (s : State) : Result := transmit targetId syncRegWriteCode ps s

end Sys2Proof.Machine
end

