-- ==== Sys2Proof/Machine/Dispatch.lean ====
section
/-! DEFINITION. What each instruction does: one arm per row of spec/opcode_table.json. -/

namespace Sys2Proof.Machine

def exec (i : Instr) (s : State) : Host.Outcome State Fault Refusal :=
  match i with
  | .ping t ps => Sys2Proof.Machine.execPing t ps s
  | .readData t ps => Sys2Proof.Machine.execReadData t ps s
  | .writeData t ps => Sys2Proof.Machine.execWriteData t ps s
  | .regWrite t ps => Sys2Proof.Machine.execRegWrite t ps s
  | .action t ps => Sys2Proof.Machine.execAction t ps s
  | .reset t ps => Sys2Proof.Machine.execReset t ps s
  | .syncWrite t ps => Sys2Proof.Machine.execSyncWrite t ps s
  | .syncRegWrite t ps => Sys2Proof.Machine.execSyncRegWrite t ps s
  | .checksum id len ins ps => Sys2Proof.Machine.execChecksum id len ins ps s
  | .frame id ins ps => Sys2Proof.Machine.execFrame id ins ps s
  | .rbOccupied buf => Sys2Proof.Machine.execRbOccupied buf s
  | .rbFree buf => Sys2Proof.Machine.execRbFree buf s
  | .rbPush buf b => Sys2Proof.Machine.execRbPush buf b s
  | .rbPop buf => Sys2Proof.Machine.execRbPop buf s
  | .rbClear buf => Sys2Proof.Machine.execRbClear buf s
  | .transmit t code ps => Sys2Proof.Machine.execTransmit t code ps s
  | .receive e m => Sys2Proof.Machine.execReceive e m s

end Sys2Proof.Machine
end

