-- ==== Sys2Proof/Machine/Step.lean ====
section
/-! DEFINITION. One step of the machine: the command on the port runs to completion, or to the wait that holds it. -/

namespace Sys2Proof.Machine

/-- One step (00_scope.md R4, R8; 20_memory.md R55). With no command on the port the block waits for one (R250). Else the command is
decoded and executed, and leaves the port when it has completed. -/
def step (s : State) : Host.Outcome State Fault Refusal :=
  match s.command with
  | none => .next s
  | some bytes =>
    match decode bytes with
    | .error why => .refused (refuseCommand why)
    | .ok i => andThen (exec i s) fun s' => .next s'.retire

/-- The state in which the caller presents, next, the command of an opcode-table row (log 4). A TRANSMIT in progress would stay on
the port, so the sequencer is idle. -/
def State.withFetchWord (s : State) (nbits w : Nat) : State :=
  { s with caller := tableMessage nbits w :: s.caller, txState := .idle }

end Sys2Proof.Machine
end

