-- ==== Sys2Proof/Machine/Pseudo.lean ====
section
/-! DEFINITION. The pseudo-operations of the software above the block (44_registry_syncwrite.md): sequences of TRANSMIT and RECEIVE
that a caller issues. They are no operations of the block (R84), and nothing here is state of the block (R33): a device's mirror and
the table layout are arguments. -/

namespace Sys2Proof.Machine

/-- What the registry keeps of a device: its bus address and its register mirror (44_registry_syncwrite.md). -/
structure Device where
  busAddress : Byte
  mirror     : List Byte
deriving DecidableEq, Repr

/-- Where a range of registers has no meaning in R201, R202 and R205. The spec says nothing of either; stopping there is the model's
choice (DESIGN CHOICE, safe; log 19). -/
inductive RangeGap where
  /-- `lastRegister - firstRegister + 1` is negative, or is emitted as a parameter and fits no byte. -/
  | span
  /-- The slice of `k` bytes at `offsetOf(firstRegister)` runs past the end of the mirror. -/
  | mirror
deriving DecidableEq, Repr

/-- How a sequence of operations ends for its caller: with a value, or held in a wait, or in a fault or a refusal (R8), or, in the
state reached, at a range the spec gives no meaning (log 19). -/
inductive CallResult (α : Type) where
  | returned (value : α) (s : State)
  | stuck (s : State)
  | fault (f : Fault)
  | refused (r : Refusal)
  | meaningless (why : RangeGap) (s : State)
deriving Repr

/-- The sequence goes on with what has been returned; any other end is its end. -/
def CallResult.andThen {α β : Type} (r : CallResult α) (k : α → State → CallResult β) : CallResult β :=
  match r with
  | .returned a s => k a s
  | .stuck s => .stuck s
  | .fault f => .fault f
  | .refused r => .refused r
  | .meaningless why s => .meaningless why s

/-- The sequence goes on with a part of a range, where the range has it (log 19). -/
def CallResult.ofRange {α : Type} (why : RangeGap) (part : Option α) (s : State) : CallResult α :=
  match part with
  | some a => .returned a s
  | none => .meaningless why s

/-- One operation of the block: its caller goes on when it has returned, and waits for ever where it is stuck (R4, R8). -/
def CallResult.ofExec (o : Result) : CallResult Unit :=
  match o with
  | .next s => if s.txState = .idle then .returned () s else .stuck s
  | .fault f => .fault f
  | .refused r => .refused r

/-- One exchange: a TRANSMIT, and the RECEIVE it must be paired with (R253, R257). The caller gets the outcome and the payload. -/
def exchange (t code : Byte) (ps : List Byte) (m : Nat) (s : State) : CallResult (ErrorOutcome × List Byte) :=
  (CallResult.ofExec (exec (.transmit t code ps) s)).andThen fun _ s =>
    (CallResult.ofExec (exec (.receive t m) s)).andThen fun _ s => .returned (s.outcome, s.parametersOut) s

/-- `lastRegister - firstRegister + 1` (R201, R202, R205), in R6's arithmetic on unbounded integers: 0 for a last register just below
the first. Below that the number is negative and no count of bytes (log 19). -/
def registerSpan (first last : Byte) : Option Nat :=
  if first.toNat ≤ last.toNat + 1 then some (last.toNat + 1 - first.toNat) else none

/-- The span where it is emitted as a parameter (R201, R205): a byte's number. The 256 of all registers is none (log 19). -/
def emittedSpan (first last : Byte) : Option Nat := (registerSpan first last).filter (· ≤ 255)

/-- The mirror has the `k` bytes `mirror[offset .. + k - 1]`; of no bytes this says nothing (log 19). -/
def Device.hasSlice (d : Device) (offset k : Nat) : Bool := k == 0 || offset + k ≤ d.mirror.length

/-- `mirror[offset .. + k - 1]` (R202, R205); nothing where the mirror is too short for it (log 19). -/
def Device.slice (d : Device) (offset k : Nat) : Option (List Byte) :=
  if d.hasSlice offset k then some ((d.mirror.drop offset).take k) else none

/-- `mirror[offset .. + k - 1] <- bytes`, with `k` the number of bytes (R201); nothing where the mirror is too short for it
(log 19). -/
def Device.withSlice (d : Device) (offset : Nat) (bytes : List Byte) : Option Device :=
  if d.hasSlice offset bytes.length then
    some { d with mirror := d.mirror.take offset ++ bytes ++ d.mirror.drop (offset + bytes.length) }
  else none

/-- `getRange` (R201): the mirror takes the payload of a `NoError` reply, and is left as it was by any other outcome. -/
def getRange (offsetOf : Byte → Nat) (d : Device) (first last : Byte) (s : State) : CallResult (ErrorOutcome × Device) :=
  (CallResult.ofRange .span (emittedSpan first last) s).andThen fun k s =>
    (exchange d.busAddress readDataCode [first, BitVec.ofNat 8 k] k s).andThen fun reply s =>
      if reply.1 = .noError then
        (CallResult.ofRange .mirror (d.withSlice (offsetOf first) reply.2) s).andThen fun d s => .returned (reply.1, d) s
      else .returned (reply.1, d) s

/-- `setRange` (R202). -/
def setRange (offsetOf : Byte → Nat) (d : Device) (first last : Byte) (s : State) : CallResult (ErrorOutcome × Device) :=
  (CallResult.ofRange .span (registerSpan first last) s).andThen fun k s =>
    (CallResult.ofRange .mirror (d.slice (offsetOf first) k) s).andThen fun bytes s =>
      (exchange d.busAddress writeDataCode (first :: bytes) 0 s).andThen fun reply s => .returned (reply.1, d) s

/-- One full exchange per device, in enumeration order, the outcomes handed to the caller (R203). The spec leaves open whether an
error ends the loop (N13); here it does not (log 17). -/
def forEachDevice (op : Device → State → CallResult (ErrorOutcome × Device)) :
    List Device → State → CallResult (List (ErrorOutcome × Device))
  | [], s => .returned [] s
  | d :: ds, s =>
    (op d s).andThen fun r s => (forEachDevice op ds s).andThen fun rs s => .returned (r :: rs) s

/-- `getRangeAll` (R203). -/
def getRangeAll (offsetOf : Byte → Nat) (first last : Byte) : List Device → State → CallResult (List (ErrorOutcome × Device)) :=
  forEachDevice fun d s => getRange offsetOf d first last s

/-- `setRangeAll` (R203). -/
def setRangeAll (offsetOf : Byte → Nat) (first last : Byte) : List Device → State → CallResult (List (ErrorOutcome × Device)) :=
  forEachDevice fun d s => setRange offsetOf d first last s

/-- `broadcastWrite` (R204): one WRITE_DATA to the broadcast id, no RECEIVE. -/
def broadcastWrite (ps : List Byte) (s : State) : Result := exec (.transmit Config.broadcastId writeDataCode ps) s

/-- What `buildAndSend` emits per device (R205): its id and its `k` bytes, in enumeration order; nothing where a mirror is too short
for them (log 19). -/
def deviceBlocks (offset k : Nat) : List Device → Option (List Byte)
  | [] => some []
  | d :: ds => (d.slice offset k).bind fun bytes => (deviceBlocks offset k ds).map fun rest => d.busAddress :: bytes ++ rest

/-- `buildAndSend` (R205): first register and span, then the devices' blocks, in one SYNC_WRITE to the broadcast id; no RECEIVE. -/
def buildAndSend (offsetOf : Byte → Nat) (first last : Byte) (ds : List Device) (s : State) : CallResult Unit :=
  (CallResult.ofRange .span (emittedSpan first last) s).andThen fun k s =>
    (CallResult.ofRange .mirror (deviceBlocks (offsetOf first) k ds) s).andThen fun blocks s =>
      CallResult.ofExec (exec (.transmit Config.broadcastId syncWriteCode ([first, BitVec.ofNat 8 k] ++ blocks)) s)

/-- What `enumerate` is told of a device class (R200): where its model number stands, which byte pairs are the expected model (the
spec does not say how a pair forms a number, N12), its tracked registers, its empty mirror, its layout and its capacity. -/
structure DeviceClass where
  modelRegister : Byte
  isExpected    : List Byte → Bool
  firstTracked  : Byte
  lastTracked   : Byte
  blankMirror   : List Byte
  offsetOf      : Byte → Nat
  capacity      : Nat

/-- `enumerate` over candidate addresses (R200), with the devices found so far: PING; on `NoError` read the model pair; on a match
read the tracked range and, on `NoError`, append the device. It stops when the class is full. That a
class of capacity 0 is full before the first PING is the model's choice (DESIGN CHOICE; log 20): R200's sequence tests only after an
append, its prose once the capacity is reached; from capacity 1 on the two agree. -/
def enumerateFrom (c : DeviceClass) : List Byte → List Device → State → CallResult (List Device)
  | [], found, s => .returned found s
  | a :: more, found, s =>
    if c.capacity ≤ found.length then .returned found s
    else (exchange a pingCode [] 0 s).andThen fun reply s =>
      if reply.1 ≠ .noError then enumerateFrom c more found s
      else (exchange a readDataCode [c.modelRegister, 2#8] 2 s).andThen fun reply s =>
        if reply.1 ≠ .noError ∨ c.isExpected reply.2 = false then enumerateFrom c more found s
        else (getRange c.offsetOf ⟨a, c.blankMirror⟩ c.firstTracked c.lastTracked s).andThen fun reply s =>
          enumerateFrom c more (if reply.1 = .noError then found ++ [reply.2] else found) s

/-- `enumerate` (R200): the addresses `0x00 .. 0xFD` in ascending order. -/
def enumerate (c : DeviceClass) (s : State) : CallResult (List Device) :=
  enumerateFrom c ((List.range 254).map (BitVec.ofNat 8)) [] s

end Sys2Proof.Machine
end

