-- ==== Sys2Proof/Safety.lean ====
section
/-! DEFINITION. The terms claims are stated in: what a buffer holds, what the line will do, the effect of a sent frame, the
invariant of the machine at rest, and what counts as a safe run. -/

namespace Sys2Proof.Machine

/-- The unread content of a buffer is this byte sequence, oldest first. -/
def RingBuffer.Holds (b : RingBuffer) (bs : List Byte) : Prop :=
  b.occupied.toNat = bs.length ∧ ∀ k, k < bs.length → b.peek k = bs[k]?

/-- A buffer in order: its array in canonical form, and every unread cell written (R251). -/
def RingBuffer.Sound (b : RingBuffer) : Prop :=
  b.data.wf ∧ ∀ k, k < b.occupied.toNat → (b.peek k).isSome = true

/-- The line accepts the next `n` bytes: none of the waits before them is for ever (R135, R261). -/
def Line.Accepts (l : Line) (n : Nat) : Prop := ∀ w ∈ l.txWaits.take n, w ≠ .never

/-- The line delivers these arrivals next, each within the bound on its wait (R162, R179). -/
def Line.Delivers (l : Line) (as : List Arrival) (more : List Arrival) : Prop :=
  l.incoming = as ++ more ∧ ∀ a ∈ as, a.silentPolls < Config.timeoutIterations

/-- The line stays silent for `TIMEOUT_ITERATIONS` polls (R162, R179): no byte is left, or the next comes too late. -/
def Silent (incoming : List Arrival) : Prop := ∀ a ∈ incoming.head?, Config.timeoutIterations ≤ a.silentPolls

/-- The arrivals after that many unsuccessful polls (R53, R258). -/
def afterPolls (n : Nat) : List Arrival → List Arrival
  | [] => []
  | a :: more => { a with silentPolls := a.silentPolls - n } :: more

/-- Where `rxTimeout` stands once these arrivals have been taken: the last wait left it so, or none has begun (R162). -/
def timeoutAfter (before : BitVec 32) (as : List Arrival) : BitVec 32 :=
  match as.getLast? with
  | none => before
  | some a => BitVec.ofNat 32 (Config.timeoutIterations - a.silentPolls)

/-- `rx` with the bytes of these arrivals pushed behind what it holds, in the order of arrival (R164). -/
abbrev State.rxWith (s : State) (as : List Arrival) : RingBuffer := (as.map Arrival.byte).foldl RingBuffer.push s.rx

/-- The state in which these arrivals, the next of the line, have been collected: their bytes pushed into `rx` in order, each counted
off `cnt`, the line left with the others (R161, R164). -/
def State.collected (s : State) (as more : List Arrival) : State :=
  { s with
    rx := s.rxWith as
    cnt := s.cnt - BitVec.ofNat 16 as.length
    rxTimeout := timeoutAfter s.rxTimeout as
    line := { s.line with incoming := more } }

/-- No marker begins in these bytes when the next byte is `0xFF`: no two adjacent `0xFF`, and none at the end (R165). -/
def NoMarkerBefore (junk : List Byte) : Prop :=
  ∀ k, ¬ ((junk ++ [Config.syncByte])[k]? = some Config.syncByte ∧ (junk ++ [Config.syncByte])[k + 1]? = some Config.syncByte)

/-- No marker stands in these bytes: no two adjacent `0xFF` (R165). -/
def NoMarker (bs : List Byte) : Prop :=
  ∀ k, ¬ (bs[k]? = some Config.syncByte ∧ bs[k + 1]? = some Config.syncByte)

/-- The effect of a completed TRANSMIT that found `old` in `tx` and sent the frame `f`, with reply size `r` (R134, R146): the
counter raised by `r`; `old` and then `f` handed to the line, whose waits for them have passed; `tx` empty, its cursors moved past
`old` and `f`; the cells from the write cursor on holding `f`, every other cell as it was; everything else as it was. -/
def Sends (old f : List Byte) (r : Nat) (s t : State) : Prop :=
  t = { s with
        tx := t.tx
        cnt := s.cnt + BitVec.ofNat 16 r
        line := { s.line with
                  txWaits := s.line.txWaits.drop (old.length + f.length)
                  sent := s.line.sent ++ old ++ f }
        answer := .noResult } ∧
  t.tx.writePos = s.tx.writePos + BitVec.ofNat 8 f.length ∧
  t.tx.readPos = t.tx.writePos ∧
  (∀ k, k < f.length → t.tx.data.read (s.tx.writePos + BitVec.ofNat 8 k).toNat = f[k]?) ∧
  ∀ a, (∀ k, k < f.length → a ≠ (s.tx.writePos + BitVec.ofNat 8 k).toNat) → t.tx.data.read a = s.tx.data.read a

/-- A state from which a TRANSMIT of `n` parameters completes: no TRANSMIT in progress, no byte owed (R131), room for the frame
behind the bytes `old` that `tx` holds (R132), and a line that accepts them all (R135). -/
def ReadyToSend (old : List Byte) (n : Nat) (s : State) : Prop :=
  s.txState = .idle ∧ s.cnt = 0#16 ∧ s.tx.Holds old ∧ old.length + (n + 6) ≤ 255 ∧ s.line.Accepts (old.length + (n + 6))

/-- The state of a RECEIVE that has found the marker of a frame behind `junk` in `rx`, before it reads the id (R165). -/
def State.AtMarker (s : State) (junk body : List Byte) : Prop :=
  s.cnt = 0#16 ∧ s.rx.Holds (junk ++ [Config.syncByte, Config.syncByte] ++ body) ∧ NoMarkerBefore junk

/-- `rx` with its head moved past `n` bytes (R113). -/
def RingBuffer.skipped (b : RingBuffer) (n : Nat) : RingBuffer := { b with readPos := b.readPos + BitVec.ofNat 8 n }

/-- The operations of a caller, one after the other (R55). -/
def execSeq : List Instr → State → Result
  | [], s => .next s
  | i :: is, s => andThen (exec i s) (execSeq is)

/-- That many steps of the machine, one after the other. -/
def stepMany : Nat → State → Result
  | 0, s => .next s
  | k + 1, s => andThen (step s) (stepMany k)

/-- The packet an instruction asks TRANSMIT to send: target, code and parameters of TRANSMIT itself and of the eight wire codes (R130,
R136 to R143); the other instructions send none. -/
def request : Instr → Option (Byte × Byte × List Byte)
  | .ping t ps => some (t, 0x01#8, ps)
  | .readData t ps => some (t, 0x02#8, ps)
  | .writeData t ps => some (t, 0x03#8, ps)
  | .regWrite t ps => some (t, 0x04#8, ps)
  | .action t ps => some (t, 0x05#8, ps)
  | .reset t ps => some (t, 0x06#8, ps)
  | .syncWrite t ps => some (t, 0x83#8, ps)
  | .syncRegWrite t ps => some (t, 0x84#8, ps)
  | .transmit t code ps => some (t, code, ps)
  | .checksum _ _ _ _ | .frame _ _ _ | .rbOccupied _ | .rbFree _ | .rbPush _ _ | .rbPop _ | .rbClear _ | .receive _ _ => none

/-- The instructions that send a packet. -/
def isTransmit (i : Instr) : Bool := (request i).isSome

/-- The invariant of the machine between steps. Both buffers are in order; the counter is within R25's bound; no RECEIVE is in
progress (R27); a TRANSMIT in progress is held by one of its three waits (R28), and past the gate with nothing owed (R131). -/
def State.Inv (s : State) : Prop :=
  s.tx.Sound ∧ s.rx.Sound ∧ s.cnt.toNat ≤ Config.maxCounter ∧ s.rxState = .idle ∧
  (s.txState = .idle ∨ s.txState = .waitCounter ∨ s.txState = .waitSpace ∨ s.txState = .drain) ∧
  (s.txState = .waitSpace → s.cnt = 0#16)

/-- The result registers keep to the table of R175: an error byte only with `GeneralError`, parameters only with `NoError`. -/
def State.ResultsInv (s : State) : Prop :=
  (s.errorByte ≠ 0x00#8 ↔ s.outcome = .generalError) ∧ (s.parametersOut ≠ [] → s.outcome = .noError)

/-- A safe step: it ends in a state or in a refusal, not in a fault. -/
def SafeStep (s : State) : Prop := ∀ f, step s ≠ .fault f

end Sys2Proof.Machine
end

