-- ==== Sys2Proof/Certificates/Slice0/Obligations.lean ====
section
/-! DEFINITION. The statements about the engine, for the provers. Each docstring names the rule of spec/ it formalises. -/

open Sys2Proof Sys2Proof.Machine

/-! ### The machine: reset, steps, invariants -/

/-- 70_reset_and_hazards.md R250 with the table of 10_state.md R35: what reset leaves of the state the table gives a value. Rests
on the spec's decision D15. -/
def Obligations.ResetState : Prop :=
  State.reset.tx.readPos = 0#8 ∧ State.reset.tx.writePos = 0#8 ∧ State.reset.rx.readPos = 0#8 ∧
  State.reset.rx.writePos = 0#8 ∧ State.reset.cnt = 0#16 ∧ State.reset.rxState = .idle ∧ State.reset.txState = .idle ∧
  (∀ a, State.reset.tx.data.read a = none) ∧ (∀ a, State.reset.rx.data.read a = none)

/-- The invariants hold after reset. The values of the result registers there are the model's (log 9); the rest of the reset state
is the spec's decision D15 (log 16). -/
def Obligations.ResetMeetsInvariants : Prop := State.reset.Inv ∧ State.reset.ResultsInv

/-- Every step keeps the machine's invariant: both arrays in canonical form, every unread cell written (R251), the counter at most
261 (R25), RECEIVE at rest (R27), TRANSMIT at rest or held by a wait (R28). The model's own here: that the open reply size is a
free value, at most 261 (log 7) and that a stuck operation is a next state (log 11). -/
def Obligations.StepKeepsInvariant : Prop :=
  ∀ s t : State, s.Inv → step s = .next t → t.Inv

/-- Every step keeps the result registers in the form of R175's table. Rests on the spec's decision D14. -/
def Obligations.StepKeepsResultForm : Prop :=
  ∀ s t : State, s.ResultsInv → step s = .next t → t.ResultsInv

/-- R251: with the invariant, no step reads a cell that no push has written; the unspecified content is unobservable. The model's
own here: the fault that a read of an unwritten cell would be (log 10). -/
def Obligations.UnwrittenCellsStayUnread : Prop :=
  ∀ (s : State) (buf : Buf), s.Inv → step s ≠ .fault (.cellUnwritten buf)

/-- R4, R55: a step executes the command on the port; the command leaves the port when both sequencers are idle. That the commands
stand in the state is the model's choice (log 4). -/
def Obligations.StepRunsDecoded : Prop :=
  ∀ (s : State) (w : List Byte) (rest : List (List Byte)) (i : Instr), s.caller = w :: rest → decode w = .ok i →
    step s = match exec i s with
      | .next t => .next (if t.txState = .idle ∧ t.rxState = .idle then { t with caller := t.caller.tail } else t)
      | .fault f => .fault f
      | .refused r => .refused r

/-- R250: with no operation issued the block waits. The model's own here: that the caller's commands stand in the state (log 4).
-/
def Obligations.IdleBlockWaits : Prop :=
  ∀ s : State, s.caller = [] → step s = .next s

/-- R4, R8, R27, R28: after a step that ends in a state, the command has completed, both sequencers idle, or it is held in one of
TRANSMIT's three waits. That a completed command leaves the caller's list, which stands in the state, is the model's choice (log
4); that a stuck operation is a next state, its command still on the port, is the model's form (log 11). -/
def Obligations.CommandCompletesOrIsHeld : Prop :=
  ∀ (s t : State) (w : List Byte) (rest : List (List Byte)), s.Inv → s.caller = w :: rest → step s = .next t →
    t.rxState = .idle ∧
    ((t.txState = .idle ∧ t.caller = rest) ∨
      ((t.txState = .waitCounter ∨ t.txState = .waitSpace ∨ t.txState = .drain) ∧ t.caller = w :: rest))

/-! ### Encodings -/

/-- Words written out from R70, R75 and R85, and what they stand for. The layout of the port's argument bytes is the model's (log
2). The model's own here: that a wire instruction stands on the port as its packet (log 3). -/
def Obligations.SomeWordsDecode : Prop :=
  decode [0xFF#8, 0xFF#8, 0x01#8, 0x02#8, 0x01#8, 0xFB#8] = .ok (.ping 0x01#8 []) ∧
  decode [0xFF#8, 0xFF#8, 0x01#8, 0x04#8, 0x02#8, 0x2B#8, 0x01#8, 0xCC#8] = .ok (.readData 0x01#8 [0x2B#8, 0x01#8]) ∧
  decode [0xFF#8, 0xFF#8, 0xFE#8, 0x02#8, 0x84#8, 0x7B#8] = .ok (.syncRegWrite 0xFE#8 []) ∧
  decode [0x00#8, 0x01#8, 0x02#8, 0x01#8] = .ok (.checksum 0x01#8 0x02#8 0x01#8 []) ∧
  decode [0x12#8] = .ok (.rbOccupied .rx) ∧
  decode [0x04#8, 0xA5#8] = .ok (.rbPush .tx 0xA5#8) ∧
  decode [0x07#8, 0x01#8, 0x01#8] = .ok (.transmit 0x01#8 0x01#8 []) ∧
  decode [0x08#8, 0x01#8, 0xF9#8] = .ok (.receive 0x01#8 249)

/-- Decoding an encoded well-formed instruction gives it back, with every operand at every value. The model's own here: the layout
of the port's argument bytes (log 2) and that a wire instruction stands on the port as its packet (log 3). -/
def Obligations.DecodeInvertsEncode : Prop :=
  ∀ i : Instr, WellFormed i = true → decode (encode i) = .ok i

/-- R70, R74, R76: the packets the decoder accepts are exactly frames: what it accepts is the frame of what it answers. The
model's own here: that a wire instruction stands on the port as its packet (log 3). -/
def Obligations.AcceptedPacketsAreFrames : Prop :=
  ∀ (rest : List Byte) (i : Instr), decode (0xFF#8 :: rest) = .ok i → (wireCode i).isSome = true ∧ encode i = 0xFF#8 :: rest

/-- What the decoder answers is well-formed. The model's own here: the layout of the port's argument bytes (log 2) and that a wire
instruction stands on the port as its packet (log 3). -/
def Obligations.DecodedIsWellFormed : Prop :=
  ∀ (w : List Byte) (i : Instr), decode w = .ok i → WellFormed i = true

/-- R85: the operation selects `0x9..0xF` are reserved and refused, with either buffer select and any arguments. Rests on the
spec's decision D3. The model's own here: the layout of the port's argument bytes (log 2). -/
def Obligations.ReservedSelectsRefused : Prop :=
  ∀ (s : State) (op : BitVec 4) (bufsel : BitVec 1) (args : List Byte) (rest : List (List Byte)), 9#4 ≤ op →
    s.caller = ((0#3 ++ (bufsel ++ op)) :: args) :: rest → step s = .refused .opReserved

/-! ### CHECKSUM and FRAME. The result of an operation stands in the model's field `answer` (log 14). -/

/-- R100: the bitwise complement of the sum modulo 256, whatever the operands; no other state changes. -/
def Obligations.ChecksumResult : Prop :=
  ∀ (id length instruction : Byte) (ps : List Byte) (s : State),
    opSelect (.checksum id length instruction ps) = some 0x0 ∧
    exec (.checksum id length instruction ps) s = .next { s with
      answer := .checksum (BitVec.ofNat 8
        (255 - (id.toNat + length.toNat + instruction.toNat + (ps.map BitVec.toNat).sum) % 256)) }

/-- R101: the checksum is a function of the bytes alone; changing one byte changes it; a reordering of the parameters does not,
and changes of two bytes can cancel. -/
def Obligations.ChecksumDetectsOneByte : Prop :=
  (∀ (id length instruction : Byte) (ps : List Byte) (s s' t t' : State),
    exec (.checksum id length instruction ps) s = .next t → exec (.checksum id length instruction ps) s' = .next t' →
    t.answer = t'.answer) ∧
  (∀ (id length instruction id' length' instruction' : Byte) (ps ps' : List Byte) (k : Nat) (s t t' : State),
    (id :: length :: instruction :: ps)[k]? ≠ (id' :: length' :: instruction' :: ps')[k]? →
    (∀ j, j ≠ k → (id :: length :: instruction :: ps)[j]? = (id' :: length' :: instruction' :: ps')[j]?) →
    ps.length = ps'.length →
    exec (.checksum id length instruction ps) s = .next t → exec (.checksum id' length' instruction' ps') s = .next t' →
    t.answer ≠ t'.answer) ∧
  (∀ (id length instruction : Byte) (ps ps' : List Byte) (s t t' : State), ps.Perm ps' →
    exec (.checksum id length instruction ps) s = .next t → exec (.checksum id length instruction ps') s = .next t' →
    t.answer = t'.answer) ∧
  checksumByte 0x01#8 0x04#8 0x02#8 [0x2C#8, 0x00#8] = checksumByte 0x01#8 0x04#8 0x02#8 [0x2B#8, 0x01#8]

/-- R102: the emitted bytes for at most 253 parameters, no other state changing; more are refused (decision D12). -/
def Obligations.FrameResult : Prop :=
  ∀ (id instruction : Byte) (ps : List Byte) (s : State),
    opSelect (.frame id instruction ps) = some 0x1 ∧
    (ps.length ≤ 253 → exec (.frame id instruction ps) s = .next { s with
      answer := .frame ([0xFF#8, 0xFF#8, id, BitVec.ofNat 8 (ps.length + 2), instruction] ++ ps ++
        [BitVec.ofNat 8
          (255 - (id.toNat + (ps.length + 2) + instruction.toNat + (ps.map BitVec.toNat).sum) % 256)]) }) ∧
    (254 ≤ ps.length → exec (.frame id instruction ps) s = .refused .frameDomain)

/-! ### Ring buffers -/

/-- R110: `(writePos - readPos) mod 256`, total, nothing else changing. -/
def Obligations.RbOccupiedResult : Prop :=
  ∀ (buf : Buf) (s : State),
    opSelect (.rbOccupied buf) = some 0x2 ∧
    exec (.rbOccupied buf) s = .next { s with
      answer := .occupied
        (BitVec.ofNat 8 (((s.buffer buf).writePos.toNat + 256 - (s.buffer buf).readPos.toNat) % 256)) }

/-- R111: `256 - RB_OCCUPIED`, between 1 and 256, total, nothing else changing. Rests on the spec's decision D23. -/
def Obligations.RbFreeResult : Prop :=
  ∀ (buf : Buf) (s : State), opSelect (.rbFree buf) = some 0x3 ∧
    ∃ n : BitVec 9, exec (.rbFree buf) s = .next { s with answer := .free n } ∧
      n.toNat = 256 - ((s.buffer buf).writePos.toNat + 256 - (s.buffer buf).readPos.toNat) % 256 ∧
      1 ≤ n.toNat ∧ n.toNat ≤ 256

/-- R112: with the precondition kept, the byte goes to cell `writePos`, `writePos` is incremented modulo 256, `readPos`, every
other cell and every other piece of state stay as they were. -/
def Obligations.RbPushResult : Prop :=
  ∀ (buf : Buf) (x : Byte) (s : State), (s.buffer buf).occupied.toNat ≤ 254 →
    opSelect (.rbPush buf x) = some 0x4 ∧
    ∃ b : RingBuffer, exec (.rbPush buf x) s = .next { s.withBuffer buf b with answer := .noResult } ∧
      b.readPos = (s.buffer buf).readPos ∧
      b.writePos.toNat = ((s.buffer buf).writePos.toNat + 1) % 256 ∧
      b.data.read (s.buffer buf).writePos.toNat = some x ∧
      ∀ a, a ≠ (s.buffer buf).writePos.toNat → b.data.read a = (s.buffer buf).data.read a

/-- R113: with the precondition kept, the byte of cell `readPos` is delivered and `readPos` incremented modulo 256; the cells and
all other state stay as they were. Bytes come out in the order they were pushed. -/
def Obligations.RbPopResult : Prop :=
  (∀ (buf : Buf) (x : Byte) (s : State), 1 ≤ (s.buffer buf).occupied.toNat →
    (s.buffer buf).data.read (s.buffer buf).readPos.toNat = some x →
    opSelect (.rbPop buf) = some 0x5 ∧
    exec (.rbPop buf) s = .next { s.withBuffer buf
      { s.buffer buf with readPos := BitVec.ofNat 8 ((s.buffer buf).readPos.toNat + 1) } with answer := .popped x }) ∧
  ∀ (buf : Buf) (xs : List Byte) (x : Byte) (k : Nat) (s : State), (s.buffer buf).occupied.toNat = 0 → xs.length ≤ 255 →
    xs[k]? = some x →
    ∃ t, execSeq (xs.map (Instr.rbPush buf) ++ List.replicate (k + 1) (Instr.rbPop buf)) s = .next t ∧ t.answer = .popped x

/-- R114: both cursors 0; the cells (decision D16), `cnt` and all other state as they were; a second clear changes nothing more.
-/
def Obligations.RbClearResult : Prop :=
  ∀ (buf : Buf) (s : State), opSelect (.rbClear buf) = some 0x6 ∧
    ∃ t, exec (.rbClear buf) s = .next t ∧
      t = { s.withBuffer buf { s.buffer buf with readPos := 0#8, writePos := 0#8 } with answer := .noResult } ∧
      exec (.rbClear buf) t = .next t

/-- R115: occupied and free sum to 256 in every state; a push raises occupancy by one and lowers free by one, a pop does the
reverse, a clear sets them to 0 and 256. -/
def Obligations.OccupiedAndFreeSum : Prop :=
  ∀ (buf : Buf) (s : State),
    (s.buffer buf).occupied.toNat + (s.buffer buf).free.toNat = 256 ∧
    (∀ x t, exec (.rbPush buf x) s = .next t →
      (t.buffer buf).occupied.toNat = (s.buffer buf).occupied.toNat + 1 ∧
      (t.buffer buf).free.toNat + 1 = (s.buffer buf).free.toNat) ∧
    (∀ t, exec (.rbPop buf) s = .next t →
      (t.buffer buf).occupied.toNat + 1 = (s.buffer buf).occupied.toNat ∧
      (t.buffer buf).free.toNat = (s.buffer buf).free.toNat + 1) ∧
    ∀ t, exec (.rbClear buf) s = .next t → (t.buffer buf).occupied.toNat = 0 ∧ (t.buffer buf).free.toNat = 256

/-- R116: mechanically, pushing `freeSize()` bytes into any buffer makes it read empty, with all 256 places free. -/
def Obligations.FullAliasesEmpty : Prop :=
  ∀ (b : RingBuffer) (xs : List Byte), xs.length = b.free.toNat →
    (xs.foldl RingBuffer.push b).occupied = 0#8 ∧ (xs.foldl RingBuffer.push b).free = 256#9

/-- R117: a push at occupancy 255 and a pop at occupancy 0 are the faults `RbOverrun` and `RbUnderrun` (decision D11). That a
TRANSMIT whose frame would fill `tx` whole behind what it holds meets the same fault at its last push is the model's reading (log
12). -/
def Obligations.BrokenPreconditionsFault : Prop :=
  (∀ (buf : Buf) (x : Byte) (s : State),
    ((s.buffer buf).occupied.toNat = 255 → exec (.rbPush buf x) s = .fault .rbOverrun) ∧
    ((s.buffer buf).occupied.toNat = 0 → exec (.rbPop buf) s = .fault .rbUnderrun)) ∧
  ∀ (i : Instr) (targetId code : Byte) (ps : List Byte) (s : State), request i = some (targetId, code, ps) →
    txAdmitted targetId code ps = true → s.txState = .idle → s.cnt = 0#16 → s.tx.occupied.toNat + (ps.length + 6) = 256 →
    exec i s = .fault .rbOverrun

/-- R58: where both preconditions hold, push then pop and pop then push leave the same buffers and pop the same byte. -/
def Obligations.PushAndPopCommute : Prop :=
  ∀ (buf : Buf) (x y : Byte) (s : State), 1 ≤ (s.buffer buf).occupied.toNat → (s.buffer buf).occupied.toNat ≤ 254 →
    (s.buffer buf).peek 0 = some y →
    ∃ p q pq qp : State,
      exec (.rbPush buf x) s = .next p ∧ exec (.rbPop buf) p = .next pq ∧
      exec (.rbPop buf) s = .next q ∧ exec (.rbPush buf x) q = .next qp ∧
      pq.answer = .popped y ∧ q.answer = .popped y ∧ qp = { pq with answer := .noResult }

/-- R118: the document's wraparound example, for any bytes and either buffer: push 200, pop 150, push 100, from cursors 0. -/
def Obligations.WraparoundExample : Prop :=
  ∀ (buf : Buf) (xs ys : List Byte) (s : State), xs.length = 200 → ys.length = 100 →
    (s.buffer buf).readPos = 0#8 → (s.buffer buf).writePos = 0#8 →
    ∃ t, execSeq (xs.map (Instr.rbPush buf) ++ List.replicate 150 (Instr.rbPop buf) ++ ys.map (Instr.rbPush buf)) s = .next t ∧
      (t.buffer buf).readPos = 150#8 ∧ (t.buffer buf).writePos = 44#8 ∧
      (t.buffer buf).occupied.toNat = 150 ∧ (t.buffer buf).free.toNat = 106 ∧
      (t.buffer buf).Holds (xs.drop 150 ++ ys)

/-! ### TRANSMIT and the wire codes. What was handed to the line stands in the model's record `sent` (log 6); that a stuck operation
is a next state is the model's form (log 11), and that it is stuck for ever is the spec's own derivation (R131, R147). -/

/-- R130, R134, R146: an admitted TRANSMIT from a state ready for it sends what `tx` held and then exactly the frame. Rests on the
spec's decisions D12, D17 and D18. The model's own here: the record of what was sent (log 6) and that the open reply size is a
free value, at most 261 (log 7). -/
def Obligations.TransmitSendsFrame : Prop :=
  ∀ (targetId code : Byte) (ps old : List Byte) (r : Nat) (s : State),
    targetId ≠ 0xFF#8 → ps.length ≤ 249 → expectedReply targetId code ps = some r → ReadyToSend old ps.length s →
    ∃ t, exec (.transmit targetId code ps) s = .next t ∧ Sends old (frameBytes targetId code ps) r s t

/-- R136: PING; a unicast one adds 6 to the counter, a broadcast one nothing. That the operation then completes with `tx` drained
rests on the spec's decision D18; that leftovers of `tx` go out first is R134's drain. The model's own here: the record of what
was sent (log 6). -/
def Obligations.PingResult : Prop :=
  ∀ (targetId : Byte) (ps old : List Byte) (s : State),
    targetId ≠ 0xFF#8 → ps.length ≤ 249 → ReadyToSend old ps.length s →
    ∃ t, exec (.ping targetId ps) s = .next t ∧
      Sends old (frameBytes targetId 0x01#8 ps) (if targetId = 0xFE#8 then 0 else 6) s t

/-- R137: READ_DATA; a unicast one adds 6 and its second parameter to the counter, a broadcast one nothing. That the byte count is
the second parameter is the spec's decision D8. That the operation then completes with `tx` drained rests on the spec's decision
D18; that leftovers of `tx` go out first is R134's drain. The model's own here: the record of what was sent (log 6). -/
def Obligations.ReadDataResult : Prop :=
  (∀ (targetId firstRegister byteCount : Byte) (more old : List Byte) (s : State),
    targetId ≠ 0xFF#8 → targetId ≠ 0xFE#8 → more.length + 2 ≤ 249 → ReadyToSend old (more.length + 2) s →
    ∃ t, exec (.readData targetId (firstRegister :: byteCount :: more)) s = .next t ∧
      Sends old (frameBytes targetId 0x02#8 (firstRegister :: byteCount :: more)) (6 + byteCount.toNat) s t) ∧
  ∀ (ps old : List Byte) (s : State), ps.length ≤ 249 → ReadyToSend old ps.length s →
    ∃ t, exec (.readData 0xFE#8 ps) s = .next t ∧ Sends old (frameBytes 0xFE#8 0x02#8 ps) 0 s t

/-- R138: WRITE_DATA; a unicast one adds 6 to the counter, a broadcast one nothing. That the operation then completes with `tx`
drained rests on the spec's decision D18; that leftovers of `tx` go out first is R134's drain. The model's own here: the record of
what was sent (log 6). -/
def Obligations.WriteDataResult : Prop :=
  ∀ (targetId : Byte) (ps old : List Byte) (s : State),
    targetId ≠ 0xFF#8 → ps.length ≤ 249 → ReadyToSend old ps.length s →
    ∃ t, exec (.writeData targetId ps) s = .next t ∧
      Sends old (frameBytes targetId 0x03#8 ps) (if targetId = 0xFE#8 then 0 else 6) s t

/-- R139, R140, R141, R144: REG_WRITE, ACTION and RESET; a unicast one adds the open reply size of its code, a broadcast one
nothing. That a unicast one runs, with the parameter as a free value, is the model's choice among R144's two (log 7). That the
size is open is the spec's decision D9. That the operation then completes with `tx` drained rests on the spec's decision D18; that
leftovers of `tx` go out first is R134's drain. The model's own here: the record of what was sent (log 6). -/
def Obligations.OpenReplyCodesResult : Prop :=
  ∀ (targetId : Byte) (ps old : List Byte) (s : State),
    targetId ≠ 0xFF#8 → ps.length ≤ 249 → ReadyToSend old ps.length s →
    (∃ t, exec (.regWrite targetId ps) s = .next t ∧ Sends old (frameBytes targetId 0x04#8 ps)
      (if targetId = 0xFE#8 then 0 else (Config.replyBytesOther 0x04#8).val) s t) ∧
    (∃ t, exec (.action targetId ps) s = .next t ∧ Sends old (frameBytes targetId 0x05#8 ps)
      (if targetId = 0xFE#8 then 0 else (Config.replyBytesOther 0x05#8).val) s t) ∧
    ∃ t, exec (.reset targetId ps) s = .next t ∧ Sends old (frameBytes targetId 0x06#8 ps)
      (if targetId = 0xFE#8 then 0 else (Config.replyBytesOther 0x06#8).val) s t

/-- R142, R143: SYNC_WRITE and SYNC_REG_WRITE add nothing to the counter, whatever the target. For SYNC_REG_WRITE this is the
spec's decision D9. That the operation then completes with `tx` drained rests on the spec's decision D18; that leftovers of `tx`
go out first is R134's drain. The model's own here: the record of what was sent (log 6). -/
def Obligations.SyncCodesResult : Prop :=
  ∀ (targetId : Byte) (ps old : List Byte) (s : State),
    targetId ≠ 0xFF#8 → ps.length ≤ 249 → ReadyToSend old ps.length s →
    (∃ t, exec (.syncWrite targetId ps) s = .next t ∧ Sends old (frameBytes targetId 0x83#8 ps) 0 s t) ∧
    ∃ t, exec (.syncRegWrite targetId ps) s = .next t ∧ Sends old (frameBytes targetId 0x84#8 ps) 0 s t

/-- R145: TRANSMIT and the eight wire codes are refused exactly for the target `0xFF`, more than 249 parameters, and a unicast
READ_DATA with fewer than two; every code has a reply size, the open one among them (log 7). Rests on the spec's decisions D8, D12
and D17. -/
def Obligations.TransmitDomain : Prop :=
  ∀ (i : Instr) (targetId code : Byte) (ps : List Byte) (s : State), request i = some (targetId, code, ps) →
    (exec i s = .refused .txDomain ↔
      targetId = 0xFF#8 ∨ 249 < ps.length ∨ (targetId ≠ 0xFE#8 ∧ code = 0x02#8 ∧ ps.length < 2))

/-- R131: with bytes owed, an admitted TRANSMIT or wire code, broadcast included, is held at the gate with nothing else changed,
and no number of further steps moves it. The model's own here: that a stuck operation is a next state (log 11). -/
def Obligations.GateHoldsForEver : Prop :=
  ∀ (w : List Byte) (rest : List (List Byte)) (i : Instr) (targetId code : Byte) (ps : List Byte) (s : State) (k : Nat),
    s.caller = w :: rest → decode w = .ok i → request i = some (targetId, code, ps) → txAdmitted targetId code ps = true →
    s.cnt ≠ 0#16 → s.txState = .idle ∨ s.txState = .waitCounter →
    exec i s = .next { s with txState := .waitCounter } ∧
    stepMany (k + 1) s = .next { s with txState := .waitCounter }

/-- R132: with too little room in `tx`, an admitted TRANSMIT or wire code is held in the space wait with nothing else changed, for
ever. The model's own here: that a stuck operation is a next state (log 11). -/
def Obligations.SpaceWaitHoldsForEver : Prop :=
  ∀ (w : List Byte) (rest : List (List Byte)) (i : Instr) (targetId code : Byte) (ps : List Byte) (s : State) (k : Nat),
    s.caller = w :: rest → decode w = .ok i → request i = some (targetId, code, ps) → txAdmitted targetId code ps = true →
    s.cnt = 0#16 → s.txState = .idle → s.tx.free.toNat < ps.length + 6 →
    exec i s = .next { s with txState := .waitSpace } ∧
    stepMany (k + 1) s = .next { s with txState := .waitSpace }

/-- R135: where the line takes `j` bytes and is then never ready, the operation is stuck in `Drain`, the counter already raised
and those `j` bytes sent, for ever. Rests on the spec's decision D18. The model's own here: that the line's future stands in the
state as data (log 5) and that a stuck operation is a next state (log 11). -/
def Obligations.UnreadyLineHoldsForEver : Prop :=
  ∀ (w : List Byte) (rest : List (List Byte)) (i : Instr) (targetId code : Byte) (ps old : List Byte) (r j : Nat) (s : State)
    (k : Nat),
    s.caller = w :: rest → decode w = .ok i → request i = some (targetId, code, ps) →
    targetId ≠ 0xFF#8 → ps.length ≤ 249 → expectedReply targetId code ps = some r →
    s.txState = .idle → s.cnt = 0#16 → s.tx.Holds old → old.length + (ps.length + 6) ≤ 255 →
    j < old.length + (ps.length + 6) → s.line.Accepts j → s.line.txWaits[j]? = some .never →
    ∃ t, exec i s = .next t ∧ t.txState = .drain ∧ t.cnt = BitVec.ofNat 16 r ∧
      t.line.sent = s.line.sent ++ (old ++ frameBytes targetId code ps).take j ∧
      t.tx.Holds ((old ++ frameBytes targetId code ps).drop j) ∧
      stepMany (k + 1) s = .next t

/-- R147: after a completed unicast TRANSMIT or wire code that expects a reply, the next one, broadcast or not, is held at the
gate. The model's own here: that a stuck operation is a next state (log 11). -/
def Obligations.SecondTransmitHangs : Prop :=
  ∀ (i₁ i₂ : Instr) (t₁ c₁ t₂ c₂ : Byte) (ps₁ ps₂ : List Byte) (r : Nat) (s u : State),
    request i₁ = some (t₁, c₁, ps₁) → request i₂ = some (t₂, c₂, ps₂) →
    s.txState = .idle → t₁ ≠ 0xFE#8 → replyBytes c₁ ps₁ = some r → 0 < r →
    exec i₁ s = .next u → u.txState = .idle → txAdmitted t₂ c₂ ps₂ = true →
    exec i₂ u = .next { u with txState := .waitCounter }

/-- R148: no TRANSMIT and no wire code looks at `rx`, reads the line or touches a register of RECEIVE, from any state. -/
def Obligations.TransmitLeavesReceiver : Prop :=
  ∀ (i : Instr) (s t : State), isTransmit i = true → exec i s = .next t →
    t = { s with
          tx := t.tx, cnt := t.cnt, txState := t.txState, answer := t.answer
          line := { s.line with txWaits := t.line.txWaits, sent := t.line.sent } } ∧
    s.line.sent <+: t.line.sent

/-- R25, R56: a request's bytes are put into `tx`, and sent, only when the counter was zero. -/
def Obligations.RequestsWaitForReplies : Prop :=
  ∀ (i : Instr) (s t : State), isTransmit i = true → s.txState = .idle → exec i s = .next t →
    t.tx ≠ s.tx ∨ t.line.sent ≠ s.line.sent ∨ t.cnt ≠ s.cnt → s.cnt = 0#16

/-! ### RECEIVE -/

/-- R161, R162, R164: with `cnt` bytes owed that the line delivers in time, RECEIVE does what it does from the state in which they
stand in `rx`, in order, the counter is zero and the line holds the rest; `rxTimeout` stands where the last wait left it. Rests on
the spec's decisions D2 and D6. The model's own here: that the line's future stands in the state as data (log 5). -/
def Obligations.CollectThenParse : Prop :=
  ∀ (expectedId : Byte) (m : Nat) (as more : List Arrival) (s : State),
    s.cnt.toNat = as.length → s.line.Delivers as more → s.rx.occupied.toNat + as.length ≤ 255 →
    exec (.receive expectedId m) s = exec (.receive expectedId m) (s.collected as more) ∧
    (s.collected as more).cnt = 0#16 ∧
    ∀ old, s.rx.Holds old → (s.collected as more).rx.Holds (old ++ as.map Arrival.byte)

/-- R162, R163: where the line delivers fewer bytes than are owed and then stays silent for `TIMEOUT_ITERATIONS` polls, RECEIVE
returns `Timeout`: `rx` cleared, the counter zeroed, the late byte that many polls nearer. The fields of the result that R163 does
not quote are the spec's decision D14. It also rests on the spec's decision D6. The model's own here: that the line's future
stands in the state as data (log 5). -/
def Obligations.SilenceTimesOut : Prop :=
  ∀ (expectedId : Byte) (m : Nat) (as more : List Arrival) (s : State), m ≤ 249 →
    as.length < s.cnt.toNat → s.line.Delivers as more → Silent more → s.rx.occupied.toNat + as.length ≤ 255 →
    exec (.receive expectedId m) s = .next { s with
      rx := { s.rxWith as with readPos := 0#8, writePos := 0#8 }
      cnt := 0#16, rxTimeout := 0#32, rxState := .idle, rxExpectedId := expectedId, rxParamLen := m
      line := { s.line with incoming := afterPolls Config.timeoutIterations more }
      outcome := .timeout, errorByte := 0x00#8, parametersOut := [], answer := .received }

/-- R174: the byte that arrives while `rx` accounts for 255 is the fault `RxOverrun` (decision D11). -/
def Obligations.FullReceiverOverruns : Prop :=
  ∀ (expectedId : Byte) (m : Nat) (as more : List Arrival) (s : State), m ≤ 249 →
    as.length ≤ s.cnt.toNat → s.line.Delivers as more → s.rx.occupied.toNat + as.length = 256 →
    exec (.receive expectedId m) s = .fault .rxOverrun

/-- R165, R166: with nothing owed and no marker in `rx`, RECEIVE returns `HeaderError` and does not clear: the scan has passed
every byte but a lone last `0xFF`. The scan's treatment of that byte is the spec's decision D10. That `HeaderError` carries the
error byte 0 and no parameters is D14. -/
def Obligations.NoMarkerIsHeaderError : Prop :=
  ∀ (expectedId : Byte) (m : Nat) (bs : List Byte) (s : State), m ≤ 249 →
    s.cnt = 0#16 → s.rx.Holds bs → NoMarker bs →
    exec (.receive expectedId m) s = .next { s with
      rx := s.rx.skipped (if bs.getLast? = some 0xFF#8 then bs.length - 1 else bs.length)
      rxState := .idle, rxExpectedId := expectedId, rxParamLen := m
      outcome := .headerError, errorByte := 0x00#8, parametersOut := [], answer := .received }

/-- R167: an id byte other than the expected one, whatever follows it, is `IdError`, and `rx` is cleared. Rests on the spec's
decisions D10 and D14. -/
def Obligations.WrongIdIsIdError : Prop :=
  ∀ (expectedId id : Byte) (m : Nat) (junk more : List Byte) (s : State), m ≤ 249 →
    s.AtMarker junk (id :: more) → id ≠ expectedId →
    exec (.receive expectedId m) s = .next { s with
      rx := { s.rx with readPos := 0#8, writePos := 0#8 }
      rxState := .idle, rxExpectedId := expectedId, rxParamLen := m, rxId := id, rxSum := id
      outcome := .idError, errorByte := 0x00#8, parametersOut := [], answer := .received }

/-- R168: a length byte other than `2 + parameterLength`, whatever follows it, is `LengthError`, and `rx` is cleared. Rests on the
spec's decisions D10, D13 and D14. -/
def Obligations.WrongLengthIsLengthError : Prop :=
  ∀ (expectedId length : Byte) (m : Nat) (junk more : List Byte) (s : State), m ≤ 249 →
    s.AtMarker junk (expectedId :: length :: more) → length.toNat ≠ 2 + m →
    exec (.receive expectedId m) s = .next { s with
      rx := { s.rx with readPos := 0#8, writePos := 0#8 }
      rxState := .idle, rxExpectedId := expectedId, rxParamLen := m, rxId := expectedId, rxLen := length
      rxSum := expectedId + length
      outcome := .lengthError, errorByte := 0x00#8, parametersOut := [], answer := .received }

/-- R169: a non-zero status byte, whatever follows it, is `GeneralError` carrying that byte, and `rx` is cleared. Rests on the
spec's decisions D10 and D14. -/
def Obligations.DeviceErrorIsGeneralError : Prop :=
  ∀ (expectedId error : Byte) (m : Nat) (junk more : List Byte) (s : State), m ≤ 249 →
    s.AtMarker junk (expectedId :: BitVec.ofNat 8 (m + 2) :: error :: more) → error ≠ 0x00#8 →
    exec (.receive expectedId m) s = .next { s with
      rx := { s.rx with readPos := 0#8, writePos := 0#8 }
      rxState := .idle, rxExpectedId := expectedId, rxParamLen := m, rxId := expectedId
      rxLen := BitVec.ofNat 8 (m + 2), rxErr := error, rxSum := expectedId + BitVec.ofNat 8 (m + 2) + error
      outcome := .generalError, errorByte := error, parametersOut := [], answer := .received }

/-- R170, R171: a checksum byte other than the complement of the sum over id, length, error and payload is `ChecksumError`, and
`rx` is cleared. Rests on the spec's decisions D10 and D14. -/
def Obligations.WrongChecksumIsChecksumError : Prop :=
  ∀ (expectedId c : Byte) (ps junk more : List Byte) (s : State), ps.length ≤ 249 →
    s.AtMarker junk (expectedId :: BitVec.ofNat 8 (ps.length + 2) :: 0x00#8 :: (ps ++ c :: more)) →
    c ≠ checksumByte expectedId (BitVec.ofNat 8 (ps.length + 2)) 0x00#8 ps →
    exec (.receive expectedId ps.length) s = .next { s with
      rx := { s.rx with readPos := 0#8, writePos := 0#8 }
      rxState := .idle, rxExpectedId := expectedId, rxParamLen := ps.length, rxId := expectedId
      rxLen := BitVec.ofNat 8 (ps.length + 2), rxErr := 0x00#8, rxIndex := ps.length, rxPayload := ps
      rxSum := ~~~ checksumByte expectedId (BitVec.ofNat 8 (ps.length + 2)) 0x00#8 ps
      outcome := .checksumError, errorByte := 0x00#8, parametersOut := [], answer := .received }

/-- R172: a frame that passes every check is `NoError` with its payload; `rx` is not cleared, `readPos` stands past the checksum
byte, and the bytes beyond stay (decision D25). It also rests on the spec's decisions D10 and D14. -/
def Obligations.GoodFrameIsNoError : Prop :=
  ∀ (expectedId : Byte) (ps junk more : List Byte) (s : State), ps.length ≤ 249 →
    s.AtMarker junk (expectedId :: BitVec.ofNat 8 (ps.length + 2) :: 0x00#8 ::
      (ps ++ checksumByte expectedId (BitVec.ofNat 8 (ps.length + 2)) 0x00#8 ps :: more)) →
    exec (.receive expectedId ps.length) s = .next { s with
      rx := s.rx.skipped (junk.length + ps.length + 6)
      rxState := .idle, rxExpectedId := expectedId, rxParamLen := ps.length, rxId := expectedId
      rxLen := BitVec.ofNat 8 (ps.length + 2), rxErr := 0x00#8, rxIndex := ps.length, rxPayload := ps
      rxSum := ~~~ checksumByte expectedId (BitVec.ofNat 8 (ps.length + 2)) 0x00#8 ps
      outcome := .noError, errorByte := 0x00#8, parametersOut := ps, answer := .received }

/-- R173: where `rx` runs out in a state from `Id` to `Checksum`, the fault `RxUnderrun` names that state (decision D11). It also
rests on the spec's decision D10. -/
def Obligations.ShortFrameUnderruns : Prop :=
  ∀ (expectedId : Byte) (m : Nat) (ps junk : List Byte) (s : State), m ≤ 249 →
    (s.AtMarker junk [] → exec (.receive expectedId m) s = .fault (.rxUnderrun .id)) ∧
    (s.AtMarker junk [expectedId] → exec (.receive expectedId m) s = .fault (.rxUnderrun .length)) ∧
    (s.AtMarker junk [expectedId, BitVec.ofNat 8 (m + 2)] →
      exec (.receive expectedId m) s = .fault (.rxUnderrun .error)) ∧
    (s.AtMarker junk (expectedId :: BitVec.ofNat 8 (m + 2) :: 0x00#8 :: ps) → ps.length < m →
      exec (.receive expectedId m) s = .fault (.rxUnderrun .payload)) ∧
    (s.AtMarker junk (expectedId :: BitVec.ofNat 8 (m + 2) :: 0x00#8 :: ps) → ps.length = m →
      exec (.receive expectedId m) s = .fault (.rxUnderrun .checksum))

/-- R175, R222: what every RECEIVE that returns leaves, from any state: the counter zero, the sequencer idle, and per outcome the
result fields and `rx` as the table says. A `NoError` or `HeaderError` return has taken the bytes `as`, all that were owed, from
the line, and leaves `rx` not cleared: as they left it, its head moved past `n` bytes. For `NoError` the last `m + 6` of these
are, byte for byte, the frame of the expected id, the error byte 0 and the `m` parameters delivered (marker, id, length, error
byte, payload, checksum). For `HeaderError` nothing is left unread, or a lone `0xFF`. Rests on the spec's decisions D10 (what the
scan passes), D14 (the result fields) and D25 (`NoError` does not clear `rx`). -/
def Obligations.ReceiveResultTable : Prop :=
  ∀ (expectedId : Byte) (m : Nat) (s t : State), exec (.receive expectedId m) s = .next t →
    t.cnt = 0#16 ∧ t.rxState = .idle ∧ t.answer = .received ∧
    match t.outcome with
    | .noError =>
      t.errorByte = 0x00#8 ∧ t.parametersOut.length = m ∧
        ∃ as more n, s.line.incoming = as ++ more ∧ as.length = s.cnt.toNat ∧
          m + 6 ≤ n ∧ n ≤ (s.rxWith as).occupied.toNat ∧ t.rx = (s.rxWith as).skipped n ∧
          ∀ j, j < m + 6 → (s.rxWith as).peek (n - (m + 6) + j) = (frameBytes expectedId 0x00#8 t.parametersOut)[j]?
    | .generalError => t.errorByte ≠ 0x00#8 ∧ t.parametersOut = [] ∧ t.rx.readPos = 0#8 ∧ t.rx.writePos = 0#8
    | .headerError =>
      t.errorByte = 0x00#8 ∧ t.parametersOut = [] ∧
        (t.rx.occupied.toNat = 0 ∨ (t.rx.occupied.toNat = 1 ∧ t.rx.peek 0 = some 0xFF#8)) ∧
        ∃ as more n, s.line.incoming = as ++ more ∧ as.length = s.cnt.toNat ∧
          n ≤ (s.rxWith as).occupied.toNat ∧ t.rx = (s.rxWith as).skipped n
    | .timeout | .idError | .lengthError | .checksumError =>
      t.errorByte = 0x00#8 ∧ t.parametersOut = [] ∧ t.rx.readPos = 0#8 ∧ t.rx.writePos = 0#8

/-- R222: what an error return changes, from any state. The collector has pushed the bytes `as` that it took from the line; then
`HeaderError` changes nothing of `rx` beyond the pops of the scan, and every other error clears it; `cnt` is zero, `rxState` is
`Idle`, and nothing else of the block but RECEIVE's own latches and results has changed. That a clear leaves the cells as the
collector wrote them is the spec's decision D16. -/
def Obligations.ErrorReturnEffects : Prop :=
  ∀ (expectedId : Byte) (m : Nat) (s t : State), exec (.receive expectedId m) s = .next t → t.outcome ≠ .noError →
    t.rxState = .idle ∧ t.cnt = 0#16 ∧ t.tx = s.tx ∧ t.txState = s.txState ∧ t.caller = s.caller ∧
    ∃ as more, s.line.incoming = as ++ more ∧ as.length ≤ s.cnt.toNat ∧
      t.rx.data = (s.rxWith as).data ∧
      (t.outcome ≠ .headerError → t.rx.readPos = 0#8 ∧ t.rx.writePos = 0#8) ∧
      (t.outcome = .headerError → as.length = s.cnt.toNat ∧ t.line = { s.line with incoming := more } ∧
        ∃ n, n ≤ (s.rxWith as).occupied.toNat ∧ t.rx = (s.rxWith as).skipped n)

/-- R221: the order of detection, which is the priority when a reply is wrong in several ways. Silence while bytes are owed is
`Timeout`, whatever bytes have come, as long as they fit into `rx` behind what it holds; with nothing owed, bytes without a marker
are `HeaderError`; behind a marker, the first of id, length, error byte and checksum that fails decides, whatever the later ones
are. What counts as silence is the spec's decision D6; what counts as a marker, and that the byte right behind it is the id, is
D10. -/
def Obligations.OrderOfDetection : Prop :=
  ∀ (expectedId : Byte) (m : Nat) (s : State), m ≤ 249 →
    (∀ as more, as.length < s.cnt.toNat → s.line.Delivers as more → Silent more → s.rx.occupied.toNat + as.length ≤ 255 →
      ∃ t, exec (.receive expectedId m) s = .next t ∧ t.outcome = .timeout) ∧
    (∀ bs, s.cnt = 0#16 → s.rx.Holds bs → NoMarker bs →
      ∃ t, exec (.receive expectedId m) s = .next t ∧ t.outcome = .headerError) ∧
    ∀ (id length error c : Byte) (ps junk more : List Byte), ps.length = m →
      s.AtMarker junk (id :: length :: error :: (ps ++ c :: more)) →
      ∃ t, exec (.receive expectedId m) s = .next t ∧
        t.outcome = if id ≠ expectedId then .idError else if length.toNat ≠ 2 + m then .lengthError
          else if error ≠ 0x00#8 then .generalError else if c ≠ checksumByte id length error ps then .checksumError
          else .noError

/-- R160: RECEIVE does not touch `tx`, sends nothing and leaves TRANSMIT's sequencer, from any state. -/
def Obligations.ReceiveLeavesTransmitter : Prop :=
  ∀ (expectedId : Byte) (m : Nat) (s t : State), exec (.receive expectedId m) s = .next t →
    t = { s with
          rx := t.rx, cnt := t.cnt, rxTimeout := t.rxTimeout, rxState := t.rxState
          rxExpectedId := expectedId, rxParamLen := m, rxId := t.rxId, rxLen := t.rxLen, rxErr := t.rxErr
          rxSum := t.rxSum, rxIndex := t.rxIndex, rxPayload := t.rxPayload
          outcome := t.outcome, errorByte := t.errorByte, parametersOut := t.parametersOut, answer := t.answer
          line := { s.line with incoming := t.line.incoming } }

/-- R160: RECEIVE refuses exactly a `parameterLength` above 249 (decision D13). -/
def Obligations.ReceiveDomain : Prop :=
  ∀ (expectedId : Byte) (m : Nat) (s : State), exec (.receive expectedId m) s = .refused .rxDomain ↔ 249 < m

/-- R177: with nothing owed and `rx` empty, RECEIVE returns `HeaderError` at once; no buffer, counter or line changes. Rests on
the spec's decisions D14 and D26. -/
def Obligations.NothingOwedNothingRead : Prop :=
  ∀ (expectedId : Byte) (m : Nat) (s : State), m ≤ 249 → s.cnt = 0#16 → s.rx.occupied.toNat = 0 →
    exec (.receive expectedId m) s = .next { s with
      rxState := .idle, rxExpectedId := expectedId, rxParamLen := m
      outcome := .headerError, errorByte := 0x00#8, parametersOut := [], answer := .received }

/-- R103: FRAME followed by the parser: with the bytes of `FRAME(id, e, p)` as the whole content of `rx` and nothing owed, RECEIVE
returns `NoError` with the parameters `p` for the error byte 0, and for another error byte `e` it returns `GeneralError` with `e`
and delivers no parameters. The error byte 0 of `NoError` and the empty parameters of `GeneralError` are the spec's decision D14;
that the byte right behind the first marker is the id is D10. -/
def Obligations.FrameThenParseRecovers : Prop :=
  ∀ (id e : Byte) (p bytes : List Byte) (s f : State), p.length ≤ 249 →
    exec (.frame id e p) s = .next f → f.answer = .frame bytes → s.rx.Holds bytes → s.cnt = 0#16 →
    ∃ t, exec (.receive id p.length) s = .next t ∧
      if e = 0x00#8 then t.outcome = .noError ∧ t.errorByte = 0x00#8 ∧ t.parametersOut = p
      else t.outcome = .generalError ∧ t.errorByte = e ∧ t.parametersOut = []

/-- A whole exchange (R137, R161, R172, R178): a unicast READ_DATA to a device whose answer the line delivers in time, then the
matching RECEIVE: the request goes out, the payload comes back, nothing is owed and both buffers are empty. Rests on the spec's
decisions D6, D8, D10, D14 (the error byte 0), D18 (the drain completes) and D19 (no echo). The model's own here: that the line's
future stands in the state as data (log 5). -/
def Obligations.ReadExchangeReturnsPayload : Prop :=
  ∀ (targetId firstRegister byteCount : Byte) (payload : List Byte) (as more : List Arrival) (s : State),
    targetId ≠ 0xFF#8 → targetId ≠ 0xFE#8 → byteCount.toNat ≤ 249 → payload.length = byteCount.toNat →
    ReadyToSend [] 2 s → s.rx.occupied = 0#8 → s.line.Delivers as more →
    as.map Arrival.byte = frameBytes targetId 0x00#8 payload →
    ∃ t u, exec (.readData targetId [firstRegister, byteCount]) s = .next t ∧
      exec (.receive targetId byteCount.toNat) t = .next u ∧
      u.line.sent = s.line.sent ++ frameBytes targetId 0x02#8 [firstRegister, byteCount] ∧
      u.outcome = .noError ∧ u.errorByte = 0x00#8 ∧ u.parametersOut = payload ∧
      u.cnt = 0#16 ∧ u.tx.occupied = 0#8 ∧ u.rx.occupied = 0#8 ∧ u.line.incoming = more

/-- R24: the counter is raised only by TRANSMIT, from zero; RECEIVE leaves it zero; no other operation changes it. The model's own
here: that the open reply size is a free value, at most 261 (log 7). -/
def Obligations.OnlyTransceiverMovesCounter : Prop :=
  ∀ (i : Instr) (s t : State), s.txState = .idle → exec i s = .next t →
    match i with
    | .receive _ _ => t.cnt = 0#16
    | .checksum _ _ _ _ | .frame _ _ _ | .rbOccupied _ | .rbFree _ | .rbPush _ _ | .rbPop _ | .rbClear _ => t.cnt = s.cnt
    | .ping _ _ | .readData _ _ | .writeData _ _ | .regWrite _ _ | .action _ _ | .reset _ _ | .syncWrite _ _
    | .syncRegWrite _ _ | .transmit _ _ _ => t.cnt = s.cnt ∨ (s.cnt = 0#16 ∧ t.cnt.toNat ≤ 261)

/-! ### The software above the block -/

/-- R204: `broadcastWrite` sends one WRITE_DATA to the broadcast id, leaves nothing owed, and receives nothing: `rx` and the
unread bytes of the line are as before. That it completes with `tx` drained rests on the spec's decision D18. The model's own
here: that this is a caller's program over `exec` (log 17). -/
def Obligations.BroadcastWriteOwesNothing : Prop :=
  ∀ (ps : List Byte) (s : State), ps.length ≤ 249 → ReadyToSend [] ps.length s →
    ∃ t, broadcastWrite ps s = .next t ∧ t.cnt = 0#16 ∧ t.line.sent = s.line.sent ++ frameBytes 0xFE#8 0x03#8 ps ∧
      t.rx = s.rx ∧ t.line.incoming = s.line.incoming

/-- R205: `buildAndSend`, for a range whose span fits a byte, sends one SYNC_WRITE to the broadcast id whose parameters are the
first register, the span, and per device its id and its bytes, leaves nothing owed, and reads nothing: `rx` and the unread bytes
of the line are as before. The span is R6's integer `k` with `first + k = last + 1`, and may be 0; the mirrors hold the slice (log
19). That it completes with `tx` drained rests on the spec's decision D18. The model's own here: that this is a caller's program
over `exec` (log 17). -/
def Obligations.BuildAndSendSyncWrite : Prop :=
  ∀ (offsetOf : Byte → Nat) (first last : Byte) (k : Nat) (ds : List Device) (s : State),
    first.toNat + k = last.toNat + 1 → k ≤ 255 →
    (∀ d ∈ ds, k = 0 ∨ offsetOf first + k ≤ d.mirror.length) →
    2 + ds.length * (1 + k) ≤ 249 → ReadyToSend [] (2 + ds.length * (1 + k)) s →
    ∃ t ps, buildAndSend offsetOf first last ds s = .returned () t ∧
      ps.length = 2 + ds.length * (1 + k) ∧ ps.take 2 = [first, BitVec.ofNat 8 k] ∧
      (∀ j d, ds[j]? = some d →
        (ps.drop (2 + j * (1 + k))).take (1 + k) = d.busAddress :: (d.mirror.drop (offsetOf first)).take k) ∧
      t.cnt = 0#16 ∧ t.line.sent = s.line.sent ++ frameBytes 0xFE#8 0x83#8 ps ∧
      t.rx = s.rx ∧ t.line.incoming = s.line.incoming
end

