-- ==== Sys2Proof/Laws/Line.lean ====
section
/-! SUPPORT. The laws of the line: its flags, its primitives, and the wait for one byte in closed form. -/

namespace Sys2Proof.Machine

@[simp] theorem Line.write_incoming (l : Line) (b : Byte) : (l.write b).incoming = l.incoming := rfl
@[simp] theorem Line.write_txWaits (l : Line) (b : Byte) : (l.write b).txWaits = l.txWaits.tail := rfl
@[simp] theorem Line.write_sent (l : Line) (b : Byte) : (l.write b).sent = l.sent ++ [b] := rfl

theorem Config.timeoutIterations_pos : 0 < Config.timeoutIterations := Nat.succ_pos _

theorem Config.timeoutIterations_lt : Config.timeoutIterations < 2 ^ 32 := by
  unfold Config.timeoutIterations
  have := Config.timeoutIterationsLessOne.isLt
  omega

/-- After the wait the line is ready, and nothing else about it has changed (R53). -/
theorem Line.awaitTxReady_some {l l' : Line} (h : l.awaitTxReady = some l') :
    l'.txReady = true ∧ l'.incoming = l.incoming ∧ l'.sent = l.sent ∧ l'.txWaits.tail = l.txWaits.tail := by
  unfold Line.awaitTxReady at h
  split at h <;> cases h
  · rename_i hw
    simp [Line.txReady, hw]
  · rename_i hw
    simp [Line.txReady, hw]

theorem Line.awaitTxReady_none {l : Line} : l.awaitTxReady = none ↔ l.txWaits.head? = some .never := by
  unfold Line.awaitTxReady
  split <;> simp_all

/-- A byte that comes after fewer polls than the wait allows is taken, and the timeout counter stands that much lower (R162). -/
theorem awaitByte_ok {t : Nat} {line : Line} {a : Arrival} {more : List Arrival} (hl : line.incoming = a :: more)
    (ht : a.silentPolls < t) : awaitByte t line = .ok (t - a.silentPolls, a.byte, { line with incoming := more }) := by
  induction t generalizing line a with
  | zero => omega
  | succ t ih =>
    unfold awaitByte
    rcases hz : a.silentPolls with _ | k
    · simp [Line.rxAvailable, Line.read, hl, hz]
    · have hav : line.rxAvailable = false := by simp [Line.rxAvailable, hl, hz]
      have hs : line.silentPoll.incoming = { a with silentPolls := k } :: more := by simp [Line.silentPoll, hl, hz]
      simp only [hav]
      rw [ih hs (by simp only; omega)]
      simp only [Line.silentPoll, hl, Nat.add_sub_add_right]

/-- A wait through which the line stays silent ends with every poll spent (R162). -/
theorem awaitByte_error {t : Nat} {line : Line} (h : ∀ a ∈ line.incoming.head?, t ≤ a.silentPolls) :
    awaitByte t line = .error { line with incoming := afterPolls t line.incoming } := by
  induction t generalizing line with
  | zero =>
    unfold awaitByte
    rcases line with ⟨_ | ⟨a, more⟩, w, sent⟩ <;> simp [afterPolls]
  | succ t ih =>
    unfold awaitByte
    have hav : line.rxAvailable = false := by
      rcases hi : line.incoming with _ | ⟨a, more⟩
      · simp [Line.rxAvailable, hi]
      · have := h a (by simp [hi])
        simp [Line.rxAvailable, hi]
        omega
    simp only [hav]
    rcases hi : line.incoming with _ | ⟨a, more⟩
    · have hs : line.silentPoll = line := by simp [Line.silentPoll, hi]
      rw [hs, ih (by simp [hi])]
      simp [hi, afterPolls]
    · have ha := h a (by simp [hi])
      have hs : line.silentPoll = { line with incoming := { a with silentPolls := a.silentPolls - 1 } :: more } := by
        simp [Line.silentPoll, hi]
      rw [hs, ih (by simp; omega)]
      simp [afterPolls]
      omega

@[simp] theorem Line.silentPoll_txWaits (l : Line) : l.silentPoll.txWaits = l.txWaits := by
  unfold Line.silentPoll; split <;> rfl
@[simp] theorem Line.silentPoll_sent (l : Line) : l.silentPoll.sent = l.sent := by
  unfold Line.silentPoll; split <;> rfl

theorem Line.read_some {l rest : Line} {b : Byte} (h : l.read = some (b, rest)) :
    rest.txWaits = l.txWaits ∧ rest.sent = l.sent := by
  unfold Line.read at h
  split at h
  · cases h
  · cases h; exact ⟨rfl, rfl⟩

/-- Waiting for a byte, and taking it, leaves the sending side of the line as it was. -/
theorem awaitByte_ok_line {t left : Nat} {b : Byte} {line rest : Line} (h : awaitByte t line = .ok (left, b, rest)) :
    rest.txWaits = line.txWaits ∧ rest.sent = line.sent := by
  induction t generalizing line with
  | zero => simp [awaitByte] at h
  | succ t ih =>
    unfold awaitByte at h
    split at h
    · rename_i hr
      cases h
      exact Line.read_some hr
    · simpa using ih h

/-- Waiting in vain leaves the sending side of the line as it was. -/
theorem awaitByte_error_line {t : Nat} {line rest : Line} (h : awaitByte t line = .error rest) :
    rest.txWaits = line.txWaits ∧ rest.sent = line.sent := by
  induction t generalizing line with
  | zero => simp only [awaitByte, Except.error.injEq] at h; subst h; exact ⟨rfl, rfl⟩
  | succ t ih =>
    unfold awaitByte at h
    split at h
    · cases h
    · simpa using ih h

/-- A wait that ends with a byte has taken the oldest arrival, and nothing else of the line (R53). -/
theorem awaitByte_took {t left : Nat} {b : Byte} {line rest : Line} (h : awaitByte t line = .ok (left, b, rest)) :
    ∃ p, line.incoming = p :: rest.incoming ∧ p.byte = b ∧ rest = { line with incoming := rest.incoming } := by
  induction t generalizing line with
  | zero => cases h
  | succ t ih =>
    unfold awaitByte at h
    split at h
    · rename_i hr
      cases h
      unfold Line.read at hr
      split at hr
      · cases hr
      · rename_i a more hi
        cases hr
        exact ⟨a, hi, rfl, rfl⟩
    · obtain ⟨p, h1, h2, h3⟩ := ih h
      unfold Line.silentPoll at h1 h3
      split at h1
      · rename_i hi; rw [hi] at h1; cases h1
      · rename_i a more hi
        injection h1 with h1 h4
        subst h1
        exact ⟨a, by rw [hi, h4], h2, by rw [h3]; simp [hi]⟩

end Sys2Proof.Machine
end

