-- ==== Sys2Proof/Laws/PerInstr.lean ====
section
/-! SUPPORT. Statements about every instruction, one lemma per constructor. The family `FirstByte` says how an instruction's bytes
begin: a wire instruction's with the packet marker, an operation's with its select byte (30_encoding.md R70, R85). -/

namespace Sys2Proof.Laws.FirstByte

/-- An instruction has exactly one of the two forms: either it has a wire code and its bytes begin with the marker, or it has an
operation select and its bytes begin with a byte that carries it in bits 3..0. -/
def Statement (i : Instr) : Prop :=
  ((wireCode i).isSome = true ∧ opSelect i = none ∧ (encode i).take 2 = [Config.syncByte, Config.syncByte]) ∨
  (wireCode i = none ∧ ∃ b, (encode i).head? = some b ∧ b ≠ Config.syncByte ∧
    opSelect i = some (b.extractLsb' 0 4).toNat)

theorem ping (t : Byte) (ps : List Byte) : Statement (.ping t ps) := .inl ⟨rfl, rfl, rfl⟩
theorem readData (t : Byte) (ps : List Byte) : Statement (.readData t ps) := .inl ⟨rfl, rfl, rfl⟩
theorem writeData (t : Byte) (ps : List Byte) : Statement (.writeData t ps) := .inl ⟨rfl, rfl, rfl⟩
theorem regWrite (t : Byte) (ps : List Byte) : Statement (.regWrite t ps) := .inl ⟨rfl, rfl, rfl⟩
theorem action (t : Byte) (ps : List Byte) : Statement (.action t ps) := .inl ⟨rfl, rfl, rfl⟩
theorem reset (t : Byte) (ps : List Byte) : Statement (.reset t ps) := .inl ⟨rfl, rfl, rfl⟩
theorem syncWrite (t : Byte) (ps : List Byte) : Statement (.syncWrite t ps) := .inl ⟨rfl, rfl, rfl⟩
theorem syncRegWrite (t : Byte) (ps : List Byte) : Statement (.syncRegWrite t ps) := .inl ⟨rfl, rfl, rfl⟩
theorem checksum (id len ins : Byte) (ps : List Byte) : Statement (.checksum id len ins ps) := .inr ⟨rfl, _, rfl, by decide, rfl⟩
theorem frame (id ins : Byte) (ps : List Byte) : Statement (.frame id ins ps) := .inr ⟨rfl, _, rfl, by decide, rfl⟩
theorem rbOccupied (buf : Buf) : Statement (.rbOccupied buf) := by cases buf <;> exact .inr ⟨rfl, _, rfl, by decide, rfl⟩
theorem rbFree (buf : Buf) : Statement (.rbFree buf) := by cases buf <;> exact .inr ⟨rfl, _, rfl, by decide, rfl⟩
theorem rbPush (buf : Buf) (b : Byte) : Statement (.rbPush buf b) := by cases buf <;> exact .inr ⟨rfl, _, rfl, by decide, rfl⟩
theorem rbPop (buf : Buf) : Statement (.rbPop buf) := by cases buf <;> exact .inr ⟨rfl, _, rfl, by decide, rfl⟩
theorem rbClear (buf : Buf) : Statement (.rbClear buf) := by cases buf <;> exact .inr ⟨rfl, _, rfl, by decide, rfl⟩
theorem transmit (t c : Byte) (ps : List Byte) : Statement (.transmit t c ps) := .inr ⟨rfl, _, rfl, by decide, rfl⟩
theorem receive (e : Byte) (m : Nat) : Statement (.receive e m) := .inr ⟨rfl, _, rfl, by decide, rfl⟩

end Sys2Proof.Laws.FirstByte
end

