-- ==== Sys2Proof/Laws/Pseudo.lean ====
section
/-! SUPPORT. The laws of the sequences above the block: how a sequence goes on, and what the parts of a register range are. -/

namespace Sys2Proof.Machine

/-! ### Going on -/

section
variable {α β : Type} (k : α → State → CallResult β) (s : State)

@[simp] theorem CallResult.andThen_returned (a : α) : (CallResult.returned a s).andThen k = k a s := rfl
@[simp] theorem CallResult.andThen_stuck : (CallResult.stuck s : CallResult α).andThen k = .stuck s := rfl
@[simp] theorem CallResult.andThen_fault (f : Fault) : (CallResult.fault f : CallResult α).andThen k = .fault f := rfl
@[simp] theorem CallResult.andThen_refused (r : Refusal) : (CallResult.refused r : CallResult α).andThen k = .refused r := rfl
@[simp] theorem CallResult.andThen_meaningless (why : RangeGap) :
    (CallResult.meaningless why s : CallResult α).andThen k = .meaningless why s := rfl
@[simp] theorem CallResult.ofRange_some (why : RangeGap) (a : α) : CallResult.ofRange why (some a) s = .returned a s := rfl
@[simp] theorem CallResult.ofRange_none (why : RangeGap) : (CallResult.ofRange why none s : CallResult α) = .meaningless why s := rfl
end

/-- An operation that has completed returns to its caller. -/
theorem CallResult.ofExec_next {o : Result} {s : State} (h : o = .next s) (hi : s.txState = .idle) :
    CallResult.ofExec o = .returned () s := by
  rw [h]; exact if_pos hi

/-! ### Ranges -/

/-- A range has a byte count exactly where R6's integer is one. -/
theorem registerSpan_eq_some {first last : Byte} {k : Nat} :
    registerSpan first last = some k ↔ first.toNat + k = last.toNat + 1 := by
  unfold registerSpan
  split
  · rw [Option.some.injEq]; omega
  · simp only [reduceCtorEq, false_iff]; omega

theorem emittedSpan_eq_some {first last : Byte} {k : Nat} :
    emittedSpan first last = some k ↔ first.toNat + k = last.toNat + 1 ∧ k ≤ 255 := by
  simp [emittedSpan, Option.filter_eq_some_iff, registerSpan_eq_some]

/-- A slice of `k` bytes that the mirror has is the `k` bytes at its offset. -/
theorem Device.slice_eq {d : Device} {offset k : Nat} (h : k = 0 ∨ offset + k ≤ d.mirror.length) :
    d.slice offset k = some ((d.mirror.drop offset).take k) ∧ ((d.mirror.drop offset).take k).length = k := by
  refine ⟨if_pos (by simpa [Device.hasSlice] using h), ?_⟩
  rw [List.length_take, List.length_drop]
  omega

/-- The blocks of devices whose mirrors have the slice: all of one size, in order, each an id and its bytes (R205). -/
theorem deviceBlocks_eq {offset k : Nat} {ds : List Device} (h : ∀ d ∈ ds, k = 0 ∨ offset + k ≤ d.mirror.length) :
    ∃ bs, deviceBlocks offset k ds = some bs ∧ bs.length = ds.length * (1 + k) ∧
      ∀ j d, ds[j]? = some d → (bs.drop (j * (1 + k))).take (1 + k) = d.busAddress :: (d.mirror.drop offset).take k := by
  induction ds with
  | nil => exact ⟨[], rfl, by simp, by simp⟩
  | cons e es ih =>
    obtain ⟨bs, h1, h2, h3⟩ := ih fun d hd => h d (List.mem_cons_of_mem _ hd)
    obtain ⟨he, hk⟩ := Device.slice_eq (h e List.mem_cons_self)
    have hl : (e.busAddress :: (e.mirror.drop offset).take k).length = 1 + k := by rw [List.length_cons, hk, Nat.add_comm]
    refine ⟨(e.busAddress :: (e.mirror.drop offset).take k) ++ bs, ?_, ?_, fun j d hj => ?_⟩
    · simp only [deviceBlocks, he, h1, Option.bind_some, Option.map_some]
    · rw [List.length_append, hl, h2, List.length_cons, Nat.add_mul, Nat.one_mul, Nat.add_comm]
    · rcases j with _ | j
      · cases hj
        rw [Nat.zero_mul, List.drop_zero, List.take_left' hl]
      · rw [Nat.succ_mul, Nat.add_comm (j * _), ← List.drop_drop, List.drop_left' hl]
        exact h3 j d hj

end Sys2Proof.Machine
end

