-- ==== Sys2Proof/Laws/RingBuffer.lean ====
section
/-! SUPPORT. The laws of the ring buffers: cursors, occupancy, content, soundness. -/

namespace Sys2Proof.Machine

@[simp] theorem RingBuffer.skip_data (b : RingBuffer) : b.skip.data = b.data := rfl
@[simp] theorem RingBuffer.skip_readPos (b : RingBuffer) : b.skip.readPos = b.readPos + 1#8 := rfl
@[simp] theorem RingBuffer.skip_writePos (b : RingBuffer) : b.skip.writePos = b.writePos := rfl
@[simp] theorem RingBuffer.push_data (b : RingBuffer) (x : Byte) : (b.push x).data = b.data.write b.writePos.toNat x := rfl
@[simp] theorem RingBuffer.push_readPos (b : RingBuffer) (x : Byte) : (b.push x).readPos = b.readPos := rfl
@[simp] theorem RingBuffer.push_writePos (b : RingBuffer) (x : Byte) : (b.push x).writePos = b.writePos + 1#8 := rfl
@[simp] theorem RingBuffer.clear_data (b : RingBuffer) : b.clear.data = b.data := rfl
@[simp] theorem RingBuffer.clear_readPos (b : RingBuffer) : b.clear.readPos = 0#8 := rfl
@[simp] theorem RingBuffer.clear_writePos (b : RingBuffer) : b.clear.writePos = 0#8 := rfl
@[simp] theorem RingBuffer.clear_occupied (b : RingBuffer) : b.clear.occupied = 0#8 := by
  simp [RingBuffer.occupied]

/-- The number RB_FREE gives (R111). -/
theorem RingBuffer.free_toNat (b : RingBuffer) : b.free.toNat = 256 - b.occupied.toNat := by
  unfold RingBuffer.free
  have := b.occupied.isLt
  simp only [BitVec.toNat_sub, BitVec.toNat_setWidth, BitVec.toNat_ofNat]
  omega

theorem RingBuffer.skip_occupied_toNat {b : RingBuffer} (h : b.occupied.toNat ≠ 0) :
    b.skip.occupied.toNat = b.occupied.toNat - 1 := by
  unfold RingBuffer.occupied at *
  simp only [RingBuffer.skip_writePos, RingBuffer.skip_readPos]
  bv_omega

theorem RingBuffer.push_occupied_toNat {b : RingBuffer} (x : Byte) (h : b.occupied.toNat ≠ 255) :
    (b.push x).occupied.toNat = b.occupied.toNat + 1 := by
  unfold RingBuffer.occupied at *
  simp only [RingBuffer.push_writePos, RingBuffer.push_readPos]
  bv_omega

theorem RingBuffer.peek_skip (b : RingBuffer) (k : Nat) : b.skip.peek k = b.peek (k + 1) := by
  unfold RingBuffer.peek
  have : b.skip.readPos + BitVec.ofNat 8 k = b.readPos + BitVec.ofNat 8 (k + 1) := by
    simp only [RingBuffer.skip_readPos]
    rw [BitVec.add_assoc, ← BitVec.ofNat_add, Nat.add_comm 1 k]
  rw [this, RingBuffer.skip_data]

/-- The cell a push writes is the one behind the last unread byte (R112). -/
theorem RingBuffer.peek_push_last (b : RingBuffer) (x : Byte) : (b.push x).peek b.occupied.toNat = some x := by
  unfold RingBuffer.peek RingBuffer.occupied
  have : b.readPos + BitVec.ofNat 8 (b.writePos - b.readPos).toNat = b.writePos := by
    rw [BitVec.ofNat_toNat, BitVec.setWidth_eq]; bv_omega
  rw [RingBuffer.push_data, RingBuffer.push_readPos, this, Memory.read_write_same]

theorem RingBuffer.peek_push_before (b : RingBuffer) (x : Byte) {k : Nat} (h : k < b.occupied.toNat) :
    (b.push x).peek k = b.peek k := by
  unfold RingBuffer.peek
  simp only [RingBuffer.push_data, RingBuffer.push_readPos]
  refine Memory.read_write_other _ _ fun hk => ?_
  unfold RingBuffer.occupied at h
  have := BitVec.eq_of_toNat_eq hk
  bv_omega

theorem RingBuffer.pop_eq (b : RingBuffer) : b.pop = (b.peek 0).map fun x => (x, b.skip) := rfl

theorem RingBuffer.pushChecked_eq {b : RingBuffer} (x : Byte) (h : b.occupied.toNat ≠ 255) : b.pushChecked x = some (b.push x) := by
  unfold RingBuffer.pushChecked
  rw [if_neg fun hc => h (by rw [hc]; rfl)]

theorem RingBuffer.pushChecked_full {b : RingBuffer} (x : Byte) (h : b.occupied.toNat = 255) : b.pushChecked x = none := by
  unfold RingBuffer.pushChecked
  rw [if_pos (BitVec.eq_of_toNat_eq h)]

/-- Pushes that would fill the array whole meet the broken precondition at the last of them (R117). -/
theorem RingBuffer.pushAll_overfull {b : RingBuffer} {xs : List Byte} (hx : xs ≠ [])
    (h : b.occupied.toNat + xs.length = Config.capacity) : b.pushAll xs = none := by
  unfold Config.capacity at h
  induction xs generalizing b with
  | nil => exact absurd rfl hx
  | cons x xs ih =>
    simp only [List.length_cons] at h
    rcases xs with _ | ⟨y, ys⟩
    · rw [RingBuffer.pushAll, RingBuffer.pushChecked_full x (by simpa using h)]
    · simp only [List.length_cons] at h
      rw [RingBuffer.pushAll, RingBuffer.pushChecked_eq x (by omega)]
      exact ih (by simp) (by rw [RingBuffer.push_occupied_toNat x (by omega)]; simp only [List.length_cons]; omega)

/-! ### Content -/

theorem RingBuffer.Holds.peek {b : RingBuffer} {bs : List Byte} (h : b.Holds bs) {k : Nat} (hk : k < bs.length) :
    b.peek k = bs[k]? := h.2 k hk

theorem RingBuffer.Holds.skip {b : RingBuffer} {x : Byte} {bs : List Byte} (h : b.Holds (x :: bs)) : b.skip.Holds bs := by
  obtain ⟨hl, hp⟩ := h
  simp only [List.length_cons] at hl hp
  refine ⟨by rw [RingBuffer.skip_occupied_toNat (by omega)]; omega, fun k hk => ?_⟩
  rw [RingBuffer.peek_skip, hp (k + 1) (by omega)]
  rfl

theorem RingBuffer.Holds.pop {b : RingBuffer} {x : Byte} {bs : List Byte} (h : b.Holds (x :: bs)) : b.pop = some (x, b.skip) := by
  rw [RingBuffer.pop_eq, h.peek (by simp)]
  rfl

theorem RingBuffer.Holds.occupied_ne_zero {b : RingBuffer} {x : Byte} {bs : List Byte} (h : b.Holds (x :: bs)) :
    b.occupied ≠ 0#8 := fun hz => by
  have := h.1
  rw [hz] at this
  simp at this

theorem RingBuffer.Holds.occupied_nil {b : RingBuffer} (h : b.Holds []) : b.occupied = 0#8 := BitVec.eq_of_toNat_eq h.1

theorem RingBuffer.Holds.push {b : RingBuffer} {bs : List Byte} (h : b.Holds bs) (x : Byte) (hl : bs.length < 255) :
    (b.push x).Holds (bs ++ [x]) := by
  obtain ⟨ho, hp⟩ := h
  refine ⟨by rw [RingBuffer.push_occupied_toNat x (by omega)]; simp [ho], fun k hk => ?_⟩
  simp only [List.length_append, List.length_cons, List.length_nil] at hk
  rcases Nat.lt_or_ge k bs.length with hlt | hge
  · rw [RingBuffer.peek_push_before b x (by omega), hp k hlt, List.getElem?_append_left hlt]
  · have : k = b.occupied.toNat := by omega
    subst this
    rw [RingBuffer.peek_push_last, ho]
    simp

/-- Pushing a sequence that fits is pushing its bytes one after the other. -/
theorem RingBuffer.Holds.pushAll {b : RingBuffer} {bs : List Byte} (h : b.Holds bs) (xs : List Byte)
    (hl : bs.length + xs.length ≤ 255) : b.pushAll xs = some (xs.foldl RingBuffer.push b) ∧
      (xs.foldl RingBuffer.push b).Holds (bs ++ xs) := by
  induction xs generalizing b bs with
  | nil => exact ⟨rfl, by simpa using h⟩
  | cons x xs ih =>
    simp only [List.length_cons] at hl
    have hx := RingBuffer.pushChecked_eq (b := b) x (by have := h.1; omega)
    obtain ⟨h1, h2⟩ := ih (h.push x (by omega)) (by simp; omega)
    refine ⟨by simp only [RingBuffer.pushAll, hx, h1, List.foldl_cons], by simpa using h2⟩

/-- The cursors and the cells after a sequence of pushes (R112, R146). -/
theorem RingBuffer.foldl_push (xs : List Byte) (b : RingBuffer) (hl : xs.length ≤ 256) :
    (xs.foldl RingBuffer.push b).readPos = b.readPos ∧
    (xs.foldl RingBuffer.push b).writePos = b.writePos + BitVec.ofNat 8 xs.length ∧
    (∀ k, k < xs.length → (xs.foldl RingBuffer.push b).data.read (b.writePos + BitVec.ofNat 8 k).toNat = xs[k]?) ∧
    ∀ a, (∀ k, k < xs.length → a ≠ (b.writePos + BitVec.ofNat 8 k).toNat) →
      (xs.foldl RingBuffer.push b).data.read a = b.data.read a := by
  induction xs generalizing b with
  | nil => simp
  | cons x xs ih =>
    simp only [List.length_cons] at hl
    obtain ⟨h1, h2, h3, h4⟩ := ih (b.push x) (by omega)
    have hshift : ∀ k, (b.push x).writePos + BitVec.ofNat 8 k = b.writePos + BitVec.ofNat 8 (k + 1) := fun k => by
      rw [RingBuffer.push_writePos, BitVec.add_assoc, ← BitVec.ofNat_add, Nat.add_comm 1 k]
    refine ⟨h1, ?_, fun k hk => ?_, fun a ha => ?_⟩
    · rw [List.foldl_cons, h2, hshift, List.length_cons]
    · rcases k with _ | k
      · rw [List.foldl_cons, h4]
        · simp
        · intro k hk hc
          rw [hshift] at hc
          have := BitVec.eq_of_toNat_eq hc
          have hk8 : k + 1 < 256 := by omega
          bv_omega
      · have := h3 k (by simp only [List.length_cons] at hk; omega)
        rw [hshift] at this
        simpa using this
    · rw [List.foldl_cons, h4]
      · rw [RingBuffer.push_data]
        exact Memory.read_write_other _ _ (by simpa using ha 0 (by simp))
      · intro k hk
        rw [hshift]
        exact ha (k + 1) (by simp only [List.length_cons]; omega)

/-! ### Soundness -/

theorem RingBuffer.Sound.push {b : RingBuffer} (h : b.Sound) (x : Byte) (ho : b.occupied.toNat ≠ 255) : (b.push x).Sound := by
  refine ⟨Memory.wf_write h.1 (by have := b.writePos.isLt; simpa [Config.capacity] using this), fun k hk => ?_⟩
  rw [RingBuffer.push_occupied_toNat x ho] at hk
  rcases Nat.lt_or_ge k b.occupied.toNat with hlt | hge
  · rw [RingBuffer.peek_push_before b x hlt]; exact h.2 k hlt
  · have : k = b.occupied.toNat := by omega
    rw [this, RingBuffer.peek_push_last]; rfl

theorem RingBuffer.Sound.skip {b : RingBuffer} (h : b.Sound) (ho : b.occupied.toNat ≠ 0) : b.skip.Sound := by
  refine ⟨h.1, fun k hk => ?_⟩
  rw [RingBuffer.skip_occupied_toNat ho] at hk
  rw [RingBuffer.peek_skip]
  exact h.2 _ (by omega)

theorem RingBuffer.Sound.clear {b : RingBuffer} (h : b.Sound) : b.clear.Sound :=
  ⟨h.1, fun k hk => by simp at hk⟩

theorem RingBuffer.Sound.peek_some {b : RingBuffer} (h : b.Sound) {k : Nat} (hk : k < b.occupied.toNat) : ∃ x, b.peek k = some x :=
  Option.isSome_iff_exists.mp (h.2 k hk)

theorem RingBuffer.Sound.pushAll {b b' : RingBuffer} {xs : List Byte} (h : b.Sound) (hp : b.pushAll xs = some b') : b'.Sound := by
  induction xs generalizing b with
  | nil => cases hp; exact h
  | cons x xs ih =>
    unfold RingBuffer.pushAll RingBuffer.pushChecked at hp
    split at hp
    · cases hp
    · rename_i b1 hb1
      split at hb1
      · cases hb1
      · rename_i hne
        cases hb1
        exact ih (h.push x fun hc => hne (BitVec.eq_of_toNat_eq hc)) hp

theorem RingBuffer.sound_reset : RingBuffer.reset.Sound :=
  ⟨Memory.wf_nil, fun k hk => by simp [RingBuffer.reset, RingBuffer.occupied] at hk⟩

end Sys2Proof.Machine
end

