-- ==== Sys2Proof/Laws/Transmit.lean ====
section
/-! SUPPORT. The laws of TRANSMIT's sequencer: what each state can do, and what a run of states keeps. -/

namespace Sys2Proof.Machine

@[simp] theorem andThen_next (s : State) (k : State → Result) : andThen (.next s) k = k s := rfl
@[simp] theorem andThen_fault (f : Fault) (k : State → Result) : andThen (.fault f) k = .fault f := rfl
@[simp] theorem andThen_refused (r : Refusal) (k : State → Result) : andThen (.refused r) k = .refused r := rfl

theorem andThen_eq_next {o : Result} {k : State → Result} {t : State} (h : andThen o k = .next t) :
    ∃ s, o = .next s ∧ k s = .next t := by
  cases o <;> simp_all

theorem RingBuffer.skip_skipped (b : RingBuffer) (n : Nat) : b.skip.skipped n = b.skipped (n + 1) := by
  unfold RingBuffer.skipped
  simp only [RingBuffer.skip, RingBuffer.mk.injEq, true_and, and_true]
  rw [BitVec.add_assoc, ← BitVec.ofNat_add, Nat.add_comm 1 n]

theorem RingBuffer.skipped_zero (b : RingBuffer) : b.skipped 0 = b := by
  unfold RingBuffer.skipped
  simp

/-- The byte `k` places past a moved head. -/
theorem RingBuffer.peek_skipped (b : RingBuffer) (n k : Nat) : (b.skipped n).peek k = b.peek (n + k) := by
  simp only [RingBuffer.peek, RingBuffer.skipped, BitVec.add_assoc, ← BitVec.ofNat_add]

/-- What is left when the head has moved within what the buffer holds. -/
theorem RingBuffer.skipped_occupied_toNat {b : RingBuffer} {n : Nat} (h : n ≤ b.occupied.toNat) :
    (b.skipped n).occupied.toNat = b.occupied.toNat - n := by
  unfold RingBuffer.occupied RingBuffer.skipped at *
  bv_omega

/-- A buffer in order stays so when its head moves within what it holds. -/
theorem RingBuffer.Sound.skipped {b : RingBuffer} {j : Nat} (h : b.Sound) (hj : j ≤ b.occupied.toNat) : (b.skipped j).Sound := by
  induction j generalizing b with
  | zero => rw [RingBuffer.skipped_zero]; exact h
  | succ j ih =>
    rw [← RingBuffer.skip_skipped]
    exact ih (h.skip (by omega)) (by rw [RingBuffer.skip_occupied_toNat (by omega)]; omega)

theorem RingBuffer.skip_skip (b : RingBuffer) : b.skip.skip = b.skipped 2 := by
  have := RingBuffer.skip_skipped b.skip 0
  rwa [RingBuffer.skipped_zero, RingBuffer.skip_skipped] at this

theorem RingBuffer.Holds.skipped {b : RingBuffer} (as : List Byte) {bs : List Byte} (h : b.Holds (as ++ bs)) :
    (b.skipped as.length).Holds bs := by
  induction as generalizing b with
  | nil => simpa [RingBuffer.skipped_zero] using h
  | cons a as ih =>
    rw [List.length_cons, ← RingBuffer.skip_skipped]
    exact ih h.skip

/-- A wait that ends finds the line ready, and the byte written then uses up its wait (R53, R135). -/
theorem Line.awaitTxReady_write {l l' : Line} (h : l.awaitTxReady = some l') (b : Byte) :
    l'.write b = { l with txWaits := l.txWaits.tail, sent := l.sent ++ [b] } := by
  obtain ⟨-, h1, h2, h3⟩ := Line.awaitTxReady_some h
  unfold Line.write
  rw [h1, h2, h3]

theorem Line.Accepts.ready {l : Line} {n : Nat} (h : l.Accepts (n + 1)) : ∃ l', l.awaitTxReady = some l' := by
  rcases hr : l.awaitTxReady with _ | l'
  · have hn := Line.awaitTxReady_none.mp hr
    rcases hw : l.txWaits with _ | ⟨w, ws⟩
    · simp [hw] at hn
    · simp only [hw, List.head?_cons, Option.some.injEq] at hn
      exact absurd hn (h w (by simp [hw]))
  · exact ⟨l', rfl⟩

theorem Line.Accepts.tail {l l' : Line} {n : Nat} (h : l.Accepts (n + 1)) (hl : l'.txWaits = l.txWaits.tail) : l'.Accepts n := by
  intro w hw
  refine h w ?_
  rw [hl] at hw
  rcases hx : l.txWaits with _ | ⟨x, ws⟩
  · simp [hx] at hw
  · simp only [hx, List.tail_cons] at hw
    simp [hw]

/-- The drain of a buffer the line accepts whole (R134, R135). -/
theorem txDrain_sends {bs : List Byte} {s : State} (h : s.tx.Holds bs) (hl : s.line.Accepts bs.length) :
    txDrain bs.length s = .next { s with
      tx := s.tx.skipped bs.length
      line := { s.line with txWaits := s.line.txWaits.drop bs.length, sent := s.line.sent ++ bs }
      txState := .idle, answer := .noResult } := by
  induction bs generalizing s with
  | nil => simp [txDrain, State.answering, RingBuffer.skipped_zero]
  | cons b bs ih =>
    obtain ⟨l', hr⟩ := hl.ready
    have ih' := ih (s := { s with
      tx := s.tx.skip, line := { s.line with txWaits := s.line.txWaits.tail, sent := s.line.sent ++ [b] } })
      h.skip (hl.tail rfl)
    simp only [List.length_cons, txDrain, hr, h.pop, Line.awaitTxReady_write hr, ih', RingBuffer.skip_skipped,
      List.append_assoc, List.singleton_append, List.drop_tail]

/-- The drain is held where the line stops accepting, with what it has taken gone and the rest still in `tx` (R135). -/
theorem txDrain_held {bs : List Byte} {j : Nat} {s : State} (h : s.tx.Holds bs) (hj : j < bs.length) (hl : s.line.Accepts j)
    (hn : s.line.txWaits[j]? = some .never) :
    txDrain bs.length s = .next { s with
      tx := s.tx.skipped j
      line := { s.line with txWaits := s.line.txWaits.drop j, sent := s.line.sent ++ bs.take j } } := by
  induction bs generalizing s j with
  | nil => simp at hj
  | cons b bs ih =>
    rcases j with _ | j
    · have : s.line.awaitTxReady = none := Line.awaitTxReady_none.mpr (by rw [List.head?_eq_getElem?]; exact hn)
      simp only [List.length_cons, txDrain, this, RingBuffer.skipped_zero, List.drop_zero, List.take_zero, List.append_nil]
    · obtain ⟨l', hr⟩ := hl.ready
      have ih' := ih (j := j) (s := { s with
        tx := s.tx.skip, line := { s.line with txWaits := s.line.txWaits.tail, sent := s.line.sent ++ [b] } })
        h.skip (by simpa using hj) (hl.tail rfl) (by simpa using hn)
      simp only [List.length_cons, txDrain, hr, h.pop, Line.awaitTxReady_write hr, ih', RingBuffer.skip_skipped,
        List.append_assoc, List.singleton_append, List.drop_tail, List.take_succ_cons]

/-- What a drain that ends in a state can have done, from any state: some of the bytes are sent, and only TRANSMIT's side has
changed. -/
theorem txDrain_next {k : Nat} {s t : State} (h : txDrain k s = .next t) :
    ∃ j bs, j ≤ k ∧ (t.txState = .idle ∧ j = k ∨ t.txState = s.txState) ∧
      t = { s with
            tx := s.tx.skipped j, txState := t.txState, answer := t.answer
            line := { s.line with txWaits := t.line.txWaits, sent := s.line.sent ++ bs } } := by
  induction k generalizing s with
  | zero =>
    cases h
    exact ⟨0, [], Nat.le_refl 0, by simp [State.answering], by simp [State.answering, RingBuffer.skipped_zero]⟩
  | succ k ih =>
    unfold txDrain at h
    split at h
    · cases h
      exact ⟨0, [], Nat.zero_le _, by simp, by simp [RingBuffer.skipped_zero]⟩
    · rename_i line hr
      split at h
      · cases h
      · rename_i b tx hp
        obtain ⟨j, bs, hj, hst, ht⟩ := ih h
        have htx : tx = s.tx.skip := by
          rw [RingBuffer.pop_eq] at hp
          obtain ⟨x, -, hx⟩ := Option.map_eq_some_iff.mp hp
          exact (congrArg Prod.snd hx).symm
        subst htx
        refine ⟨j + 1, b :: bs, by omega, by simpa using hst, ?_⟩
        rw [ht]
        simp only [Line.awaitTxReady_write hr, RingBuffer.skip_skipped, List.append_assoc, List.singleton_append]

theorem txDrain_fault {k : Nat} {s : State} {f : Fault} (h : txDrain k s = .fault f) : f = .cellUnwritten .tx := by
  induction k generalizing s with
  | zero => cases h
  | succ k ih =>
    unfold txDrain at h
    split at h
    · cases h
    · split at h
      · cases h; rfl
      · exact ih h

theorem txDrain_refused {k : Nat} {s : State} {r : Refusal} : txDrain k s ≠ .refused r := by
  induction k generalizing s with
  | zero => simp [txDrain]
  | succ k ih =>
    unfold txDrain
    split
    · simp
    · split
      · simp
      · exact ih

/-- A buffer in order drains without a fault (R251). -/
theorem txDrain_sound {k : Nat} {s : State} {f : Fault} (h : s.tx.Sound) (hk : k = s.tx.occupied.toNat) : txDrain k s ≠ .fault f := by
  induction k generalizing s with
  | zero => simp [txDrain]
  | succ k ih =>
    unfold txDrain
    split
    · simp
    · obtain ⟨x, hx⟩ := h.peek_some (k := 0) (by omega)
      rw [RingBuffer.pop_eq, hx]
      simp only [Option.map_some]
      exact ih (h.skip (by omega)) (by simp only; rw [RingBuffer.skip_occupied_toNat (by omega)]; omega)

/-- Whatever every state of the sequencer keeps, a run of states keeps. -/
theorem txRun_keeps {P : State → Prop} {t c : Byte} {ps : List Byte}
    (hstep : ∀ s u, P s → txTick t c ps s = .next u → P u) {k : Nat} {s u : State} (hs : P s)
    (h : txRun t c ps k s = .next u) : P u := by
  induction k generalizing s with
  | zero => cases h; exact hs
  | succ k ih =>
    obtain ⟨v, hv, h⟩ := andThen_eq_next h
    exact ih (hstep s v hs hv) h

/-- What one state of the sequencer leaves alone, from any state of the machine (R148). -/
theorem txTick_next {t c : Byte} {ps : List Byte} {s u : State} (h : txTick t c ps s = .next u) :
    u = { s with
          tx := u.tx, cnt := u.cnt, txState := u.txState, answer := u.answer
          line := { s.line with txWaits := u.line.txWaits, sent := u.line.sent } } ∧
    s.line.sent <+: u.line.sent := by
  unfold txTick at h
  split at h
  · cases h; exact ⟨rfl, List.prefix_refl _⟩
  · split at h <;> cases h <;> exact ⟨rfl, List.prefix_refl _⟩
  · split at h <;> cases h <;> exact ⟨rfl, List.prefix_refl _⟩
  · cases h; exact ⟨rfl, List.prefix_refl _⟩
  · split at h
    · cases h
    · cases h; exact ⟨rfl, List.prefix_refl _⟩
  · obtain ⟨j, bs, -, -, ht⟩ := txDrain_next h
    rw [ht]
    exact ⟨rfl, List.prefix_append _ _⟩

/-- Every instruction that sends a packet is the TRANSMIT of that packet (R130, R136 to R143). -/
theorem exec_request {i : Instr} {t c : Byte} {ps : List Byte} (h : request i = some (t, c, ps)) (s : State) :
    exec i s = transmit t c ps s := by
  cases i <;> cases h <;> rfl

/-- The size of a frame (R70). -/
@[simp] theorem frameBytes_length (id c : Byte) (ps : List Byte) : (frameBytes id c ps).length = ps.length + 6 := by
  simp [frameBytes]

/-- Every reply size is within the bound of R25. -/
theorem expectedReply_le {t c : Byte} {ps : List Byte} {r : Nat} (h : expectedReply t c ps = some r) : r ≤ Config.maxCounter := by
  unfold expectedReply replyBytes Config.fixedReplyBytes at h
  unfold Config.maxCounter
  split at h
  · cases h; omega
  · split at h
    · cases h; omega
    · split at h
      · obtain ⟨b, -, rfl⟩ := Option.map_eq_some_iff.mp h
        have := b.isLt
        omega
      · split at h
        · cases h; omega
        · cases h
          have := (Config.replyBytesOther c).isLt
          omega

end Sys2Proof.Machine
end

