-- ==== Sys2Proof/Laws/Receive.lean ====
section
/-! SUPPORT. The laws of RECEIVE's sequencer: what each state can do, and what a run of states keeps. -/

namespace Sys2Proof.Machine

/-- Whatever every state of the sequencer keeps, a run of states keeps. -/
theorem rxRun_keeps {P : State → Prop} (hstep : ∀ s u, P s → rxTick s = .next u → P u) {k : Nat} {s u : State} (hs : P s)
    (h : rxRun k s = .next u) : P u := by
  induction k generalizing s with
  | zero => cases h; exact hs
  | succ k ih =>
    obtain ⟨v, hv, h⟩ := andThen_eq_next h
    exact ih (hstep s v hs hv) h

theorem rxRun_idle {k : Nat} {s : State} (h : s.rxState = .idle) : rxRun k s = .next s := by
  induction k with
  | zero => rfl
  | succ k ih => simp only [rxRun, rxTick, h, andThen_next, ih]

theorem rxRun_succ {k : Nat} {s u : State} (h : rxTick s = .next u) : rxRun (k + 1) s = rxRun k u := by
  simp only [rxRun, h, andThen_next]

theorem rxRun_fault {k : Nat} {s : State} {f : Fault} (h : rxTick s = .fault f) : rxRun (k + 1) s = .fault f := by
  simp only [rxRun, h, andThen_fault]

/-! ### `Next()` -/

theorem rxNext_cons {s : State} {b : Byte} {bs : List Byte} (h : s.rx.Holds (b :: bs)) (k : Byte → State → Result) :
    rxNext s k = k b { s with rx := s.rx.skip } := by
  simp only [rxNext, if_neg h.occupied_ne_zero, h.pop]

theorem rxNext_nil {s : State} (h : s.rx.Holds []) (k : Byte → State → Result) : rxNext s k = .fault (.rxUnderrun s.rxState) := by
  simp only [rxNext, if_pos h.occupied_nil]

/-- A `Next()` that ends in a state has popped the head of a buffer that is not empty. -/
theorem rxNext_eq_next {s t : State} {k : Byte → State → Result} (h : rxNext s k = .next t) :
    ∃ b, s.rx.occupied.toNat ≠ 0 ∧ s.rx.peek 0 = some b ∧ k b { s with rx := s.rx.skip } = .next t := by
  unfold rxNext at h
  split at h
  · cases h
  · rename_i hne
    split at h
    · cases h
    · rename_i b rx hp
      rw [RingBuffer.pop_eq] at hp
      obtain ⟨x, hb, hx⟩ := Option.map_eq_some_iff.mp hp
      cases hx
      exact ⟨b, fun hz => hne (BitVec.eq_of_toNat_eq hz), hb, h⟩

/-! ### The collector (R161 to R164, R174) -/

theorem State.collected_nil {s : State} {more : List Arrival} (h : s.line.incoming = more) : s.collected [] more = s := by
  subst h
  simp [State.collected, State.rxWith, timeoutAfter]

/-- Collecting the first arrival and then the others is collecting them all. -/
theorem State.collected_cons (s : State) (a : Arrival) (as more : List Arrival) :
    (s.collected [a] (as ++ more)).collected as more = s.collected (a :: as) more := by
  have hc : s.cnt - 1#16 - BitVec.ofNat 16 as.length = s.cnt - BitVec.ofNat 16 (as.length + 1) := by
    rw [BitVec.ofNat_add]; bv_omega
  have ht : timeoutAfter (timeoutAfter s.rxTimeout [a]) as = timeoutAfter s.rxTimeout (a :: as) := by
    rcases as with _ | ⟨b, bs⟩
    · rfl
    · simp [timeoutAfter, List.getLast?_cons]
  simp only [State.collected, State.rxWith, List.map_cons, List.map_nil, List.foldl_cons, List.foldl_nil, List.length_cons, List.length_nil,
    hc, ht, Nat.zero_add]

/-- Bytes the line delivers in time are pushed into `rx` and counted off (R164). -/
theorem rxCollect_delivered {as more : List Arrival} {n : Nat} {s : State} (hl : s.line.Delivers as more)
    (ho : s.rx.occupied.toNat + as.length ≤ 255) : rxCollect (as.length + n) s = rxCollect n (s.collected as more) := by
  induction as generalizing s with
  | nil => rw [List.length_nil, Nat.zero_add, State.collected_nil (by simpa using hl.1)]
  | cons a as ih =>
    obtain ⟨hi, hs⟩ := hl
    simp only [List.length_cons] at ho
    have hp := RingBuffer.pushChecked_eq (b := s.rx) a.byte (by omega)
    have ih' := ih (s := s.collected [a] (as ++ more))
      ⟨rfl, fun b hb => hs b (List.mem_cons_of_mem a hb)⟩
      (by simp only [State.collected, State.rxWith, List.map_cons, List.map_nil, List.foldl_cons, List.foldl_nil]
          rw [RingBuffer.push_occupied_toNat _ (by omega)]; omega)
    rw [State.collected_cons] at ih'
    have hn : (a :: as).length + n = as.length + n + 1 := by simp only [List.length_cons]; omega
    have hi : s.line.incoming = a :: (as ++ more) := hi
    rw [hn, rxCollect, awaitByte_ok hi (hs a (List.mem_cons_self)), ← ih']
    simp only [hp]
    rfl

/-- What a collector that ends in a state has done, from any state: either every byte owed has come, or RECEIVE has returned
`Timeout` with the counter zero. -/
theorem rxCollect_next {n : Nat} {s t : State} (h : rxCollect n s = .next t) :
    (s.rx.Sound → t.rx.Sound) ∧
    t = { s with
          rx := t.rx, cnt := t.cnt, rxTimeout := t.rxTimeout, rxState := t.rxState
          outcome := t.outcome, errorByte := t.errorByte, parametersOut := t.parametersOut, answer := t.answer
          line := { s.line with incoming := t.line.incoming } } ∧
    (t.rxState = .sync ∧ t.cnt = s.cnt - BitVec.ofNat 16 n ∧ t.outcome = s.outcome ∧ t.errorByte = s.errorByte ∧
        t.parametersOut = s.parametersOut ∧ t.answer = s.answer ∨
      t.rxState = .idle ∧ t.cnt = 0#16 ∧ t.outcome = .timeout ∧ t.errorByte = 0x00#8 ∧ t.parametersOut = [] ∧
        t.answer = .received ∧ t.rx.readPos = 0#8 ∧ t.rx.writePos = 0#8) := by
  induction n generalizing s with
  | zero =>
    cases h
    exact ⟨id, rfl, .inl ⟨rfl, by simp, rfl, rfl, rfl, rfl⟩⟩
  | succ n ih =>
    unfold rxCollect at h
    split at h
    · rename_i line hw
      cases h
      obtain ⟨h1, h2⟩ := awaitByte_error_line hw
      refine ⟨fun hs => hs.clear, ?_, .inr ⟨rfl, rfl, rfl, rfl, rfl, rfl, rfl, rfl⟩⟩
      simp only [State.rxErrorReturn, State.rxReturn, ← h1, ← h2]
    · rename_i left b line hw
      obtain ⟨h1, h2⟩ := awaitByte_ok_line hw
      split at h
      · cases h
      · rename_i rx hp
        obtain ⟨hs, ht, hc⟩ := ih h
        simp only at hs ht hc
        refine ⟨fun hs0 => hs (by
          unfold RingBuffer.pushChecked at hp
          split at hp
          · cases hp
          · rename_i hne
            cases hp
            exact hs0.push b fun hz => hne (BitVec.eq_of_toNat_eq hz)), ?_, ?_⟩
        · rw [ht]; simp only [h1, h2]
        · rcases hc with ⟨hc1, hc2, hc3⟩ | hc
          · refine .inl ⟨hc1, ?_, hc3⟩
            rw [hc2, BitVec.ofNat_add]; bv_omega
          · exact .inr hc

/-- Which bytes a collector that ends in a state has taken, from any state: the next of the line, pushed into `rx` in order; all that
are owed, unless it has returned `Timeout`. -/
theorem rxCollect_took {n : Nat} {s t : State} (h : rxCollect n s = .next t) :
    ∃ as more, s.line.incoming = as ++ more ∧ as.length ≤ n ∧ t.rx.data = (s.rxWith as).data ∧
      (t.rxState = .sync ∧ as.length = n ∧ t.rx = s.rxWith as ∧ t.line = { s.line with incoming := more } ∨
        t.rxState = .idle ∧ t.outcome = .timeout) := by
  induction n generalizing s with
  | zero => cases h; exact ⟨[], s.line.incoming, rfl, Nat.le_refl _, rfl, .inl ⟨rfl, rfl, rfl, rfl⟩⟩
  | succ n ih =>
    unfold rxCollect at h
    split at h
    · cases h
      exact ⟨[], s.line.incoming, rfl, Nat.zero_le _, rfl, .inr ⟨rfl, rfl⟩⟩
    · rename_i left b line hw
      split at h
      · cases h
      · rename_i rx hp
        obtain ⟨as, more, h1, h2, h3, h4⟩ := ih h
        obtain ⟨p, hp1, hp2, hp3⟩ := awaitByte_took hw
        have hrx : rx = s.rx.push b := by
          unfold RingBuffer.pushChecked at hp
          split at hp
          · cases hp
          · exact (Option.some.inj hp).symm
        subst hrx hp2
        refine ⟨p :: as, more, by rw [hp1, h1]; rfl, by simpa using h2, h3, h4.imp_left ?_⟩
        rintro ⟨h5, h6, h7, h8⟩
        exact ⟨h5, by simpa using h6, h7, by rw [h8, hp3]⟩

theorem rxCollect_fault {n : Nat} {s : State} {f : Fault} (h : rxCollect n s = .fault f) : f = .rxOverrun := by
  induction n generalizing s with
  | zero => cases h
  | succ n ih =>
    unfold rxCollect at h
    split at h
    · cases h
    · split at h
      · cases h; rfl
      · exact ih h

theorem rxCollect_refused {n : Nat} {s : State} {r : Refusal} : rxCollect n s ≠ .refused r := by
  induction n generalizing s with
  | zero => simp [rxCollect]
  | succ n ih =>
    unfold rxCollect
    split
    · simp
    · split
      · simp
      · exact ih

/-! ### The scan (R165, R166) -/

/-- The scan passes over bytes before which no marker stands, and takes the marker (R165). -/
theorem rxScan_marker {junk body : List Byte} {s : State}
    (h : s.rx.Holds (junk ++ [Config.syncByte, Config.syncByte] ++ body)) (hj : NoMarkerBefore junk) :
    rxScan (junk ++ [Config.syncByte, Config.syncByte] ++ body).length s =
      .next { s with rx := s.rx.skipped (junk.length + 2), rxState := .id } := by
  induction junk generalizing s with
  | nil =>
    have h0 : s.rx.peek 0 = some Config.syncByte := h.peek (k := 0) (by simp)
    have h1 : s.rx.peek 1 = some Config.syncByte := h.peek (k := 1) (by simp)
    simp only [List.nil_append, List.cons_append, List.length_cons, rxScan, h0, h1, ne_eq, not_true, if_false,
      Nat.add_one_ne_zero, if_true, List.length_nil, Nat.zero_add, RingBuffer.skip_skip]
  | cons b junk ih =>
    have hnext : NoMarkerBefore junk := fun k hk => hj (k + 1) hk
    have h0 : s.rx.peek 0 = some b := h.peek (k := 0) (by simp)
    have ih' := ih (s := { s with rx := s.rx.skip }) h.skip hnext
    simp only [RingBuffer.skip_skipped] at ih'
    have hlen : (b :: junk ++ [Config.syncByte, Config.syncByte] ++ body).length =
        (junk ++ [Config.syncByte, Config.syncByte] ++ body).length + 1 := by simp
    rw [hlen, rxScan, h0]
    simp only
    split
    · rw [ih']; simp only [List.length_cons]
    · rename_i hb
      have hb : b = Config.syncByte := not_not.mp hb
      have hne : ¬ (junk ++ [Config.syncByte, Config.syncByte] ++ body).length = 0 := by simp
      have h1 : s.rx.peek 1 = (junk ++ [Config.syncByte, Config.syncByte] ++ body)[0]? := h.peek (k := 1) (by simp)
      have hj0 := hj 0
      rw [if_neg hne, h1]
      rcases junk with _ | ⟨c, junk⟩
      · exact absurd ⟨by simp [hb], by simp⟩ hj0
      · have hc : c ≠ Config.syncByte := fun hc => hj0 ⟨by simp [hb], by simp [hc]⟩
        simp only [List.cons_append, List.getElem?_cons_zero, if_neg hc]
        simp only [List.cons_append] at ih'
        rw [ih']
        simp only [List.length_cons]

/-- The scan of bytes in which no marker stands runs out, having passed every byte but a lone last `0xFF` (R166). -/
theorem rxScan_noMarker {bs : List Byte} {s : State} (h : s.rx.Holds bs) (hb : NoMarker bs) :
    rxScan bs.length s = .next (State.rxReturn { s with
      rx := s.rx.skipped (if bs.getLast? = some Config.syncByte then bs.length - 1 else bs.length) }
      .headerError 0x00#8 []) := by
  induction bs generalizing s with
  | nil => simp only [List.length_nil, rxScan, List.getLast?_nil, reduceCtorEq, if_false, RingBuffer.skipped_zero]
  | cons b bs ih =>
    have hnext : NoMarker bs := fun k hk => hb (k + 1) hk
    have h0 : s.rx.peek 0 = some b := h.peek (k := 0) (by simp)
    have ih' := ih (s := { s with rx := s.rx.skip }) h.skip hnext
    simp only [RingBuffer.skip_skipped] at ih'
    have hcount : ∀ (hne : bs ≠ []),
        (if bs.getLast? = some Config.syncByte then bs.length - 1 else bs.length) + 1 =
        if (b :: bs).getLast? = some Config.syncByte then (b :: bs).length - 1 else (b :: bs).length := by
      intro hne
      obtain ⟨c, cs, rfl⟩ := List.exists_cons_of_ne_nil hne
      rw [List.getLast?_cons_cons]
      split <;> simp
    rw [List.length_cons, rxScan, h0]
    simp only
    split
    · rename_i hne
      rw [ih']
      rcases bs with _ | ⟨c, cs⟩
      · simp [hne]
      · rw [hcount (by simp)]
        rfl
    · rename_i hs
      have hs : b = Config.syncByte := not_not.mp hs
      rcases bs with _ | ⟨c, cs⟩
      · simp [hs, RingBuffer.skipped_zero]
      · have h1 : s.rx.peek 1 = some c := h.peek (k := 1) (by simp)
        have hc : c ≠ Config.syncByte := fun hc => hb 0 ⟨by simp [hs], by simp [hc]⟩
        simp only [List.length_cons, Nat.add_one_ne_zero, if_false, h1, if_neg hc]
        simp only [List.length_cons] at ih'
        rw [ih']
        have := hcount (by simp)
        simp only [List.length_cons] at this
        rw [this]

/-- What a scan that ends in a state can have done, from any state (R165, R166): it has passed a marker, the last
two bytes it popped, or it has returned `HeaderError` with at most one byte, `0xFF`, left. -/
theorem rxScan_next {n : Nat} {s t : State} (h : rxScan n s = .next t) (hn : n = s.rx.occupied.toNat) :
    ∃ j, j ≤ n ∧
      ((2 ≤ j ∧ s.rx.peek (j - 2) = some Config.syncByte ∧ s.rx.peek (j - 1) = some Config.syncByte ∧
          t = { s with rx := s.rx.skipped j, rxState := .id }) ∨
        t = State.rxReturn { s with rx := s.rx.skipped j } .headerError 0x00#8 [] ∧
          (t.rx.occupied.toNat = 0 ∨ t.rx.occupied.toNat = 1 ∧ t.rx.peek 0 = some Config.syncByte)) := by
  induction n generalizing s with
  | zero =>
    cases h
    exact ⟨0, Nat.le_refl 0, .inr ⟨by simp only [RingBuffer.skipped_zero], .inl hn.symm⟩⟩
  | succ n ih =>
    have hstep : rxScan n { s with rx := s.rx.skip } = .next t → ∃ j, j ≤ n + 1 ∧
        ((2 ≤ j ∧ s.rx.peek (j - 2) = some Config.syncByte ∧ s.rx.peek (j - 1) = some Config.syncByte ∧
            t = { s with rx := s.rx.skipped j, rxState := .id }) ∨
          t = State.rxReturn { s with rx := s.rx.skipped j } .headerError 0x00#8 [] ∧
            (t.rx.occupied.toNat = 0 ∨ t.rx.occupied.toNat = 1 ∧ t.rx.peek 0 = some Config.syncByte)) := by
      intro ht
      obtain ⟨j, hj, hcase⟩ := ih ht (by simp only; rw [RingBuffer.skip_occupied_toNat (by omega)]; omega)
      simp only [RingBuffer.skip_skipped, RingBuffer.peek_skip] at hcase
      refine ⟨j + 1, by omega, hcase.imp_left ?_⟩
      rintro ⟨h2, h3, h4, h5⟩
      exact ⟨by omega, by rwa [show j + 1 - 2 = j - 2 + 1 by omega], by rwa [show j + 1 - 1 = j - 1 + 1 by omega], h5⟩
    unfold rxScan at h
    split at h
    · cases h
    · rename_i a ha
      split at h
      · exact hstep h
      · rename_i hs
        have hs : a = Config.syncByte := not_not.mp hs
        split at h
        · rename_i hz
          cases h
          refine ⟨0, Nat.zero_le _, .inr ⟨by simp only [RingBuffer.skipped_zero], .inr ?_⟩⟩
          simp only [State.rxReturn]
          exact ⟨by omega, by rw [ha, hs]⟩
        · split at h
          · cases h
          · rename_i b hb
            split at h
            · rename_i hbs
              cases h
              exact ⟨2, by omega, .inl ⟨Nat.le_refl 2, by rw [ha, hs], by rw [hb, hbs], by simp only [RingBuffer.skip_skip]⟩⟩
            · exact hstep h

theorem rxScan_refused {n : Nat} {s : State} {r : Refusal} : rxScan n s ≠ .refused r := by
  induction n generalizing s with
  | zero => simp [rxScan]
  | succ n ih =>
    unfold rxScan
    split
    · simp
    · split
      · exact ih
      · split
        · simp
        · split
          · simp
          · split
            · simp
            · exact ih

/-- A buffer in order is scanned without a fault (R251). -/
theorem rxScan_sound {n : Nat} {s : State} {f : Fault} (h : s.rx.Sound) (hn : n = s.rx.occupied.toNat) : rxScan n s ≠ .fault f := by
  induction n generalizing s with
  | zero => simp [rxScan]
  | succ n ih =>
    have hstep := ih (s := { s with rx := s.rx.skip }) (h.skip (by omega))
      (by simp only; rw [RingBuffer.skip_occupied_toNat (by omega)]; omega)
    unfold rxScan
    obtain ⟨a, ha⟩ := h.peek_some (k := 0) (by omega)
    rw [ha]
    simp only
    split
    · exact hstep
    · split
      · simp
      · obtain ⟨b, hb⟩ := h.peek_some (k := 1) (by omega)
        rw [hb]
        simp only
        split
        · simp
        · exact hstep

/-! ### The payload (R170) -/

/-- Exactly that many bytes are popped, appended in order and added to the sum (R170). -/
theorem rxReadPayload_all {ps more : List Byte} {s : State} (h : s.rx.Holds (ps ++ more)) :
    rxReadPayload ps.length s = .next { s with
      rx := s.rx.skipped ps.length, rxState := .checksum
      rxPayload := s.rxPayload ++ ps, rxSum := ps.foldl (· + ·) s.rxSum, rxIndex := s.rxIndex + ps.length } := by
  induction ps generalizing s with
  | nil => simp [rxReadPayload, RingBuffer.skipped_zero]
  | cons p ps ih =>
    have ih' := ih (s := { s with
        rx := s.rx.skip, rxPayload := s.rxPayload ++ [p], rxSum := s.rxSum + p, rxIndex := s.rxIndex + 1 }) h.skip
    rw [List.length_cons, rxReadPayload, rxNext_cons h]
    simp only [ih', RingBuffer.skip_skipped, List.append_assoc, List.singleton_append, List.foldl_cons]
    congr 2
    omega

/-- A payload that runs out is the fault of its state (R173). -/
theorem rxReadPayload_short {ps : List Byte} {n : Nat} {s : State} (h : s.rx.Holds ps) (hn : ps.length < n)
    (hst : s.rxState = .payload) : rxReadPayload n s = .fault (.rxUnderrun .payload) := by
  induction ps generalizing s n with
  | nil =>
    obtain ⟨n, rfl⟩ := Nat.exists_eq_succ_of_ne_zero (Nat.ne_of_gt hn)
    rw [rxReadPayload, rxNext_nil h, hst]
  | cons p ps ih =>
    obtain ⟨n, rfl⟩ := Nat.exists_eq_succ_of_ne_zero (Nat.ne_of_gt (Nat.lt_of_le_of_lt (Nat.zero_le _) hn))
    have ih' := ih (n := n) (s := { s with
        rx := s.rx.skip, rxPayload := s.rxPayload ++ [p], rxSum := s.rxSum + p, rxIndex := s.rxIndex + 1 }) h.skip
        (by simp only [List.length_cons] at hn; omega) hst
    rw [rxReadPayload, rxNext_cons h]
    exact ih'

/-- A running sum goes on from where it stands. -/
theorem foldl_add_eq (ps : List Byte) (a : Byte) : ps.foldl (· + ·) a = a + byteSum ps := by
  unfold byteSum
  induction ps generalizing a with
  | nil => simp
  | cons p ps ih => rw [List.foldl_cons, List.foldl_cons, ih, ih (0#8 + p), BitVec.zero_add, BitVec.add_assoc]

theorem byteSum_cons (b : Byte) (bs : List Byte) : byteSum (b :: bs) = b + byteSum bs := by
  rw [byteSum, List.foldl_cons, foldl_add_eq, BitVec.zero_add]

/-- What reading the payload can have done, from any state: the bytes it has read are the next of `rx`, in order,
and are added to the running sum (R170). -/
theorem rxReadPayload_next {n : Nat} {s t : State} (h : rxReadPayload n s = .next t) :
    n ≤ s.rx.occupied.toNat ∧
    t = { s with
          rx := s.rx.skipped n, rxState := .checksum
          rxPayload := t.rxPayload, rxSum := t.rxSum, rxIndex := s.rxIndex + n } ∧
    ∃ ps, t.rxPayload = s.rxPayload ++ ps ∧ ps.length = n ∧ t.rxSum = s.rxSum + byteSum ps ∧ ∀ k, k < n → ps[k]? = s.rx.peek k := by
  induction n generalizing s with
  | zero =>
    cases h
    exact ⟨Nat.zero_le _, by simp only [RingBuffer.skipped_zero, Nat.add_zero], [], by simp, rfl, by simp [byteSum], by simp⟩
  | succ n ih =>
    obtain ⟨b, ho, hb, h⟩ := rxNext_eq_next h
    obtain ⟨hn, ht, ps, hp, hl, hs, hk⟩ := ih h
    simp only [RingBuffer.skip_skipped, RingBuffer.skip_occupied_toNat ho] at hn ht hp hs hk
    refine ⟨by omega, ?_, b :: ps, by simp [hp], by simp [hl], ?_, fun k hlt => ?_⟩
    · rw [ht]
      simp only [State.mk.injEq, true_and, and_true]
      omega
    · rw [hs, BitVec.add_assoc, byteSum_cons]
    · rcases k with _ | k
      · exact hb.symm
      · rw [List.getElem?_cons_succ, hk k (by omega), RingBuffer.peek_skip]

/-! ### One state of the sequencer (R176) -/

theorem rxReturn_eq (s : State) (o : ErrorOutcome) (e : Byte) (p : List Byte) :
    s.rxReturn o e p = { s with rxState := .idle, outcome := o, errorByte := e, parametersOut := p, answer := .received } := rfl

theorem rxErrorReturn_eq (s : State) (o : ErrorOutcome) (e : Byte) :
    s.rxErrorReturn o e = { s with
      rx := s.rx.clear, rxState := .idle, outcome := o, errorByte := e, parametersOut := [], answer := .received } := rfl

/-- `Collect` with nothing owed. -/
theorem rxTick_collect_none {u : State} (hst : u.rxState = .collect) (hc : u.cnt = 0#16) :
    rxTick u = .next { u with rxState := .sync } := by
  simp only [rxTick, hst, hc, BitVec.toNat_ofNat, Nat.zero_mod, rxCollect]

/-- `Sync` before a marker. -/
theorem rxTick_sync_marker {u : State} {junk body : List Byte} (hst : u.rxState = .sync)
    (h : u.rx.Holds (junk ++ [Config.syncByte, Config.syncByte] ++ body)) (hj : NoMarkerBefore junk) :
    rxTick u = .next { u with rx := u.rx.skipped (junk.length + 2), rxState := .id } := by
  simp only [rxTick, hst, h.1, rxScan_marker h hj]

/-- `Sync` with no marker in `rx`. -/
theorem rxTick_sync_none {u : State} {bs : List Byte} (hst : u.rxState = .sync) (h : u.rx.Holds bs) (hb : NoMarker bs) :
    rxTick u = .next (State.rxReturn { u with
      rx := u.rx.skipped (if bs.getLast? = some Config.syncByte then bs.length - 1 else bs.length) } .headerError 0x00#8 []) := by
  simp only [rxTick, hst, h.1, rxScan_noMarker h hb]

/-- `Id`, the byte read. -/
theorem rxTick_id {u : State} {b : Byte} {body : List Byte} (hst : u.rxState = .id) (h : u.rx.Holds (b :: body)) :
    rxTick u = .next (if b ≠ u.rxExpectedId
      then State.rxErrorReturn { u with rx := u.rx.skip, rxId := b, rxSum := b } .idError 0x00#8
      else { u with rx := u.rx.skip, rxId := b, rxSum := b, rxState := .length }) := by
  simp only [rxTick, hst, rxReadId, rxNext_cons h]

/-- `Length`, the byte read. -/
theorem rxTick_length {u : State} {b : Byte} {body : List Byte} (hst : u.rxState = .length) (h : u.rx.Holds (b :: body)) :
    rxTick u = .next (if b.toNat ≠ 2 + u.rxParamLen
      then State.rxErrorReturn { u with rx := u.rx.skip, rxLen := b, rxSum := u.rxSum + b } .lengthError 0x00#8
      else { u with rx := u.rx.skip, rxLen := b, rxSum := u.rxSum + b, rxState := .error }) := by
  simp only [rxTick, hst, rxReadLength, rxNext_cons h]

/-- `Error`, the byte read. -/
theorem rxTick_error {u : State} {b : Byte} {body : List Byte} (hst : u.rxState = .error) (h : u.rx.Holds (b :: body)) :
    rxTick u = .next (if b ≠ 0x00#8
      then State.rxErrorReturn { u with rx := u.rx.skip, rxErr := b, rxSum := u.rxSum + b } .generalError b
      else { u with
        rx := u.rx.skip, rxErr := b, rxSum := u.rxSum + b, rxState := .payload, rxIndex := 0, rxPayload := [] }) := by
  simp only [rxTick, hst, rxReadError, rxNext_cons h]

/-- `Payload`, entered with the whole payload in `rx`. -/
theorem rxTick_payload {u : State} {ps body : List Byte} (hst : u.rxState = .payload) (h : u.rx.Holds (ps ++ body))
    (hm : u.rxParamLen = ps.length) (hi : u.rxIndex = 0) (hp : u.rxPayload = []) :
    rxTick u = .next { u with
      rx := u.rx.skipped ps.length, rxState := .checksum
      rxPayload := ps, rxSum := u.rxSum + byteSum ps, rxIndex := ps.length } := by
  simp only [rxTick, hst, hm, hi, Nat.sub_zero, rxReadPayload_all h, hp, List.nil_append, Nat.zero_add, foldl_add_eq]

/-- `Checksum`, the byte read. -/
theorem rxTick_checksum {u : State} {b : Byte} {body : List Byte} (hst : u.rxState = .checksum) (h : u.rx.Holds (b :: body)) :
    rxTick u = .next (if b ≠ ~~~u.rxSum then State.rxErrorReturn { u with rx := u.rx.skip } .checksumError 0x00#8
      else State.rxReturn { u with rx := u.rx.skip } .noError 0x00#8 u.rxPayload) := by
  simp only [rxTick, hst, rxReadChecksum, rxNext_cons h]

/-- A byte is needed in `Id`, `Length`, `Error` or `Checksum` and `rx` is empty (R173). -/
theorem rxTick_underrun {u : State} (h : u.rx.Holds [])
    (hst : u.rxState = .id ∨ u.rxState = .length ∨ u.rxState = .error ∨ u.rxState = .checksum) :
    rxTick u = .fault (.rxUnderrun u.rxState) := by
  rcases hst with hst | hst | hst | hst <;>
    simp only [rxTick, hst, rxReadId, rxReadLength, rxReadError, rxReadChecksum, rxNext_nil h]

/-- Everything a state of the sequencer can do when it ends in a state, from any state (R176). -/
theorem rxTick_next {u v : State} (h : rxTick u = .next v) :
    u.rxState = .idle ∧ v = u ∨
    u.rxState = .collect ∧ rxCollect u.cnt.toNat u = .next v ∨
    u.rxState = .sync ∧ rxScan u.rx.occupied.toNat u = .next v ∨
    u.rxState = .payload ∧ rxReadPayload (u.rxParamLen - u.rxIndex) u = .next v ∨
    ∃ b, u.rx.occupied.toNat ≠ 0 ∧ u.rx.peek 0 = some b ∧
      (u.rxState = .id ∧
          (b ≠ u.rxExpectedId ∧
              v = State.rxErrorReturn { u with rx := u.rx.skip, rxId := b, rxSum := b } .idError 0x00#8 ∨
            b = u.rxExpectedId ∧ v = { u with rx := u.rx.skip, rxId := b, rxSum := b, rxState := .length }) ∨
        u.rxState = .length ∧
          (b.toNat ≠ 2 + u.rxParamLen ∧
              v = State.rxErrorReturn { u with rx := u.rx.skip, rxLen := b, rxSum := u.rxSum + b } .lengthError 0x00#8 ∨
            b.toNat = 2 + u.rxParamLen ∧ v = { u with rx := u.rx.skip, rxLen := b, rxSum := u.rxSum + b, rxState := .error }) ∨
        u.rxState = .error ∧
          (b ≠ 0x00#8 ∧
              v = State.rxErrorReturn { u with rx := u.rx.skip, rxErr := b, rxSum := u.rxSum + b } .generalError b ∨
            b = 0x00#8 ∧
              v = { u with
                rx := u.rx.skip, rxErr := b, rxSum := u.rxSum + b, rxState := .payload, rxIndex := 0, rxPayload := [] }) ∨
        u.rxState = .checksum ∧
          (b ≠ ~~~u.rxSum ∧ v = State.rxErrorReturn { u with rx := u.rx.skip } .checksumError 0x00#8 ∨
            b = ~~~u.rxSum ∧ v = State.rxReturn { u with rx := u.rx.skip } .noError 0x00#8 u.rxPayload)) := by
  unfold rxTick at h
  split at h
  · rename_i hst; cases h; exact .inl ⟨hst, rfl⟩
  · rename_i hst; exact .inr (.inl ⟨hst, h⟩)
  · rename_i hst; exact .inr (.inr (.inl ⟨hst, h⟩))
  · rename_i hst
    obtain ⟨b, ho, hp, h⟩ := rxNext_eq_next h
    refine .inr (.inr (.inr (.inr ⟨b, ho, hp, .inl ⟨hst, ?_⟩⟩)))
    by_cases hb : b = u.rxExpectedId
    · exact .inr ⟨hb, by simpa [hb] using h.symm⟩
    · exact .inl ⟨hb, by simpa [hb] using h.symm⟩
  · rename_i hst
    obtain ⟨b, ho, hp, h⟩ := rxNext_eq_next h
    refine .inr (.inr (.inr (.inr ⟨b, ho, hp, .inr (.inl ⟨hst, ?_⟩)⟩)))
    by_cases hb : b.toNat = 2 + u.rxParamLen
    · exact .inr ⟨hb, by simpa [hb] using h.symm⟩
    · exact .inl ⟨hb, by simpa [hb] using h.symm⟩
  · rename_i hst
    obtain ⟨b, ho, hp, h⟩ := rxNext_eq_next h
    refine .inr (.inr (.inr (.inr ⟨b, ho, hp, .inr (.inr (.inl ⟨hst, ?_⟩))⟩)))
    by_cases hb : b = 0x00#8
    · exact .inr ⟨hb, by simpa [hb] using h.symm⟩
    · exact .inl ⟨hb, by simpa [hb] using h.symm⟩
  · rename_i hst; exact .inr (.inr (.inr (.inl ⟨hst, h⟩)))
  · rename_i hst
    obtain ⟨b, ho, hp, h⟩ := rxNext_eq_next h
    refine .inr (.inr (.inr (.inr ⟨b, ho, hp, .inr (.inr (.inr ⟨hst, ?_⟩))⟩)))
    by_cases hb : b = ~~~u.rxSum
    · exact .inr ⟨hb, by simpa [hb] using h.symm⟩
    · exact .inl ⟨hb, by simpa [hb] using h.symm⟩

/-- No state of the sequencer leaves `rx` out of order (R251). -/
theorem rxTick_sound {u v : State} (hu : u.rx.Sound) (h : rxTick u = .next v) : v.rx.Sound := by
  rcases rxTick_next h with ⟨_, rfl⟩ | ⟨_, h⟩ | ⟨_, h⟩ | ⟨_, h⟩ | ⟨b, ho, -, h⟩
  · exact hu
  · exact (rxCollect_next h).1 hu
  · obtain ⟨j, hj, ⟨-, -, -, h⟩ | ⟨h, -⟩⟩ := rxScan_next h rfl <;> subst h <;> exact hu.skipped hj
  · obtain ⟨hn, h, -⟩ := rxReadPayload_next h
    rw [h]; exact hu.skipped hn
  · rcases h with ⟨_, ⟨_, rfl⟩ | ⟨_, rfl⟩⟩ | ⟨_, ⟨_, rfl⟩ | ⟨_, rfl⟩⟩ | ⟨_, ⟨_, rfl⟩ | ⟨_, rfl⟩⟩ | ⟨_, ⟨_, rfl⟩ | ⟨_, rfl⟩⟩
    all_goals first | exact hu.skip ho | exact (hu.skip ho).clear

theorem rxNext_refused {s : State} {k : Byte → State → Result} {r : Refusal} (hk : ∀ b u, k b u ≠ .refused r) :
    rxNext s k ≠ .refused r := by
  unfold rxNext
  split
  · simp
  · split
    · simp
    · exact hk _ _

theorem rxReadPayload_refused {n : Nat} {s : State} {r : Refusal} : rxReadPayload n s ≠ .refused r := by
  induction n generalizing s with
  | zero => simp [rxReadPayload]
  | succ n ih => exact rxNext_refused fun _ _ => ih

theorem rxTick_refused {s : State} {r : Refusal} : rxTick s ≠ .refused r := by
  unfold rxTick
  split
  · simp
  · exact rxCollect_refused
  · exact rxScan_refused
  · exact rxNext_refused fun _ _ => by simp
  · exact rxNext_refused fun _ _ => by simp
  · exact rxNext_refused fun _ _ => by simp
  · exact rxReadPayload_refused
  · exact rxNext_refused fun _ _ => by simp

theorem rxRun_refused {k : Nat} {s : State} {r : Refusal} : rxRun k s ≠ .refused r := by
  induction k generalizing s with
  | zero => simp [rxRun]
  | succ k ih =>
    unfold rxRun
    cases h : rxTick s with
    | next u => exact ih
    | fault f => simp
    | refused r' => exact absurd h rxTick_refused

theorem RingBuffer.skipped_skip (b : RingBuffer) (n : Nat) : (b.skipped n).skip = b.skipped (n + 1) := by
  simp only [RingBuffer.skipped, RingBuffer.skip, BitVec.add_assoc, ← BitVec.ofNat_add]

theorem RingBuffer.skipped_skipped (b : RingBuffer) (m n : Nat) : (b.skipped m).skipped n = b.skipped (m + n) := by
  simp only [RingBuffer.skipped, BitVec.add_assoc, ← BitVec.ofNat_add]

/-- RECEIVE inside its domain is a run of its seven states (R160). -/
theorem receive_eq {e : Byte} {m : Nat} {s : State} (hm : m ≤ 249) : receive e m s = rxRun 7 (s.rxStart e m) := by
  simp only [receive, Config.maxParamsRx, hm, if_true]

/-- A RECEIVE with nothing owed and a marker in `rx` comes to the state `Id` behind the marker (R165). -/
theorem receive_marker {e : Byte} {m : Nat} {junk body : List Byte} {s : State} (hm : m ≤ 249) (h : s.AtMarker junk body) :
    receive e m s =
      rxRun 5 { s with
        rx := s.rx.skipped (junk.length + 2), rxState := .id, rxExpectedId := e, rxParamLen := m } ∧
    (s.rx.skipped (junk.length + 2)).Holds body := by
  obtain ⟨hc, hh, hj⟩ := h
  refine ⟨?_, by simpa using RingBuffer.Holds.skipped (junk ++ [Config.syncByte, Config.syncByte]) hh⟩
  have h1 := rxTick_collect_none (u := s.rxStart e m) rfl hc
  have h2 := rxTick_sync_marker (u := { s.rxStart e m with rxState := .sync }) rfl hh hj
  exact (receive_eq hm).trans ((rxRun_succ h1).trans (rxRun_succ h2))

theorem RingBuffer.Holds.skipped_succ {b : RingBuffer} {n : Nat} {x : Byte} {bs : List Byte} (h : (b.skipped n).Holds (x :: bs)) :
    (b.skipped (n + 1)).Holds bs := by
  rw [← RingBuffer.skipped_skip]; exact h.skip

/-! ### A check passed, a check failed: each state of the parser in the form the next one takes -/

theorem rxTick_id_ok {u : State} {b : Byte} {body : List Byte} {r : RingBuffer} (hst : u.rxState = .id)
    (h : u.rx.Holds (b :: body)) (hb : b = u.rxExpectedId) (hr : u.rx.skip = r) :
    rxTick u = .next { u with rx := r, rxId := b, rxSum := b, rxState := .length } := by
  rw [rxTick_id hst h, if_neg (by simp [hb]), hr]

theorem rxTick_id_bad {u : State} {b : Byte} {body : List Byte} (hst : u.rxState = .id) (h : u.rx.Holds (b :: body))
    (hb : b ≠ u.rxExpectedId) :
    rxTick u = .next (State.rxErrorReturn { u with rx := u.rx.skip, rxId := b, rxSum := b } .idError 0x00#8) := by
  rw [rxTick_id hst h, if_pos hb]

theorem rxTick_length_ok {u : State} {b : Byte} {body : List Byte} {r : RingBuffer} (hst : u.rxState = .length)
    (h : u.rx.Holds (b :: body)) (hb : b.toNat = 2 + u.rxParamLen) (hr : u.rx.skip = r) :
    rxTick u = .next { u with rx := r, rxLen := b, rxSum := u.rxSum + b, rxState := .error } := by
  rw [rxTick_length hst h, if_neg (by simp [hb]), hr]

theorem rxTick_length_bad {u : State} {b : Byte} {body : List Byte} (hst : u.rxState = .length) (h : u.rx.Holds (b :: body))
    (hb : b.toNat ≠ 2 + u.rxParamLen) :
    rxTick u = .next (State.rxErrorReturn { u with rx := u.rx.skip, rxLen := b, rxSum := u.rxSum + b } .lengthError 0x00#8) := by
  rw [rxTick_length hst h, if_pos hb]

theorem rxTick_error_ok {u : State} {body : List Byte} {r : RingBuffer} (hst : u.rxState = .error)
    (h : u.rx.Holds (0x00#8 :: body)) (hr : u.rx.skip = r) :
    rxTick u = .next { u with rx := r, rxErr := 0x00#8, rxSum := u.rxSum, rxState := .payload, rxIndex := 0, rxPayload := [] } := by
  rw [rxTick_error hst h, if_neg (by simp), hr, BitVec.add_zero]

theorem rxTick_error_bad {u : State} {b : Byte} {body : List Byte} (hst : u.rxState = .error) (h : u.rx.Holds (b :: body))
    (hb : b ≠ 0x00#8) :
    rxTick u = .next (State.rxErrorReturn { u with rx := u.rx.skip, rxErr := b, rxSum := u.rxSum + b } .generalError b) := by
  rw [rxTick_error hst h, if_pos hb]

theorem rxTick_payload_ok {u : State} {ps body : List Byte} {r : RingBuffer} {c : Byte} (hst : u.rxState = .payload)
    (h : u.rx.Holds (ps ++ body)) (hm : u.rxParamLen = ps.length) (hi : u.rxIndex = 0) (hp : u.rxPayload = [])
    (hr : u.rx.skipped ps.length = r) (hc : u.rxSum + byteSum ps = c) :
    rxTick u = .next { u with rx := r, rxState := .checksum, rxPayload := ps, rxSum := c, rxIndex := ps.length } := by
  rw [rxTick_payload hst h hm hi hp, hr, hc]

theorem rxTick_checksum_ok {u : State} {b : Byte} {body : List Byte} {r : RingBuffer} (hst : u.rxState = .checksum)
    (h : u.rx.Holds (b :: body)) (hb : b = ~~~u.rxSum) (hr : u.rx.skip = r) :
    rxTick u = .next (State.rxReturn { u with rx := r } .noError 0x00#8 u.rxPayload) := by
  rw [rxTick_checksum hst h, if_neg (by simp [hb]), hr]

theorem rxTick_checksum_bad {u : State} {b : Byte} {body : List Byte} (hst : u.rxState = .checksum) (h : u.rx.Holds (b :: body))
    (hb : b ≠ ~~~u.rxSum) :
    rxTick u = .next (State.rxErrorReturn { u with rx := u.rx.skip } .checksumError 0x00#8) := by
  rw [rxTick_checksum hst h, if_pos hb]

/-- The running sum over a good header and a payload is the complement of the frame's checksum (R171). -/
theorem sum_eq_checksumByte (e l : Byte) (ps : List Byte) : e + l + byteSum ps = ~~~ checksumByte e l 0x00#8 ps := by
  simp [checksumByte]

/-! ### A RECEIVE with nothing owed and a marker in `rx`, as far as its checks pass (R167 to R171) -/

theorem receive_id {e : Byte} {m : Nat} {junk body : List Byte} {s : State} (hm : m ≤ 249) (h : s.AtMarker junk (e :: body)) :
    receive e m s =
      rxRun 4 { s with
        rx := s.rx.skipped (junk.length + 3), rxState := .length, rxExpectedId := e, rxParamLen := m, rxId := e, rxSum := e } ∧
    (s.rx.skipped (junk.length + 3)).Holds body := by
  obtain ⟨h1, h2⟩ := receive_marker (e := e) (m := m) hm h
  refine ⟨h1.trans (rxRun_succ ?_), h2.skipped_succ⟩
  exact rxTick_id_ok rfl h2 rfl (RingBuffer.skipped_skip _ _)

theorem receive_length {e : Byte} {m : Nat} {junk body : List Byte} {s : State} (hm : m ≤ 249)
    (h : s.AtMarker junk (e :: BitVec.ofNat 8 (m + 2) :: body)) :
    receive e m s =
      rxRun 3 { s with
        rx := s.rx.skipped (junk.length + 4), rxState := .error, rxExpectedId := e, rxParamLen := m, rxId := e
        rxLen := BitVec.ofNat 8 (m + 2), rxSum := e + BitVec.ofNat 8 (m + 2) } ∧
    (s.rx.skipped (junk.length + 4)).Holds body := by
  obtain ⟨h1, h2⟩ := receive_id (e := e) (m := m) hm h
  have hl : (BitVec.ofNat 8 (m + 2)).toNat = 2 + m := by simp; omega
  refine ⟨h1.trans (rxRun_succ ?_), h2.skipped_succ⟩
  exact rxTick_length_ok rfl h2 hl (RingBuffer.skipped_skip _ _)

theorem receive_error {e : Byte} {m : Nat} {junk body : List Byte} {s : State} (hm : m ≤ 249)
    (h : s.AtMarker junk (e :: BitVec.ofNat 8 (m + 2) :: 0x00#8 :: body)) :
    receive e m s =
      rxRun 2 { s with
        rx := s.rx.skipped (junk.length + 5), rxState := .payload, rxExpectedId := e, rxParamLen := m, rxId := e
        rxLen := BitVec.ofNat 8 (m + 2), rxSum := e + BitVec.ofNat 8 (m + 2), rxErr := 0x00#8, rxIndex := 0, rxPayload := [] } ∧
    (s.rx.skipped (junk.length + 5)).Holds body := by
  obtain ⟨h1, h2⟩ := receive_length (e := e) (m := m) hm h
  refine ⟨h1.trans (rxRun_succ ?_), h2.skipped_succ⟩
  exact rxTick_error_ok rfl h2 (RingBuffer.skipped_skip _ _)

theorem receive_payload {e : Byte} {junk ps body : List Byte} {s : State} (hm : ps.length ≤ 249)
    (h : s.AtMarker junk (e :: BitVec.ofNat 8 (ps.length + 2) :: 0x00#8 :: (ps ++ body))) :
    receive e ps.length s =
      rxRun 1 { s with
        rx := s.rx.skipped (junk.length + 5 + ps.length), rxState := .checksum, rxExpectedId := e, rxParamLen := ps.length
        rxId := e, rxLen := BitVec.ofNat 8 (ps.length + 2)
        rxSum := ~~~ checksumByte e (BitVec.ofNat 8 (ps.length + 2)) 0x00#8 ps
        rxErr := 0x00#8, rxIndex := ps.length, rxPayload := ps } ∧
    (s.rx.skipped (junk.length + 5 + ps.length)).Holds body := by
  obtain ⟨h1, h2⟩ := receive_error (e := e) (m := ps.length) hm h
  refine ⟨h1.trans (rxRun_succ ?_), ?_⟩
  · exact rxTick_payload_ok rfl h2 rfl rfl rfl (RingBuffer.skipped_skipped _ _ _) (sum_eq_checksumByte _ _ _)
  · rw [← RingBuffer.skipped_skipped]; exact RingBuffer.Holds.skipped ps h2

end Sys2Proof.Machine
end

