-- ==== Sys2Proof/Laws/State.lean ====
section
/-! SUPPORT. What each named update of the state does to each field, true by definition. -/

namespace Sys2Proof.Machine

/-! ### An answer -/

@[simp] theorem State.answering_tx (s : State) (a : Answer) : (s.answering a).tx = s.tx := rfl
@[simp] theorem State.answering_rx (s : State) (a : Answer) : (s.answering a).rx = s.rx := rfl
@[simp] theorem State.answering_cnt (s : State) (a : Answer) : (s.answering a).cnt = s.cnt := rfl
@[simp] theorem State.answering_rxTimeout (s : State) (a : Answer) : (s.answering a).rxTimeout = s.rxTimeout := rfl
@[simp] theorem State.answering_rxState (s : State) (a : Answer) : (s.answering a).rxState = s.rxState := rfl
@[simp] theorem State.answering_txState (s : State) (a : Answer) : (s.answering a).txState = s.txState := rfl
@[simp] theorem State.answering_rxExpectedId (s : State) (a : Answer) : (s.answering a).rxExpectedId = s.rxExpectedId := rfl
@[simp] theorem State.answering_rxParamLen (s : State) (a : Answer) : (s.answering a).rxParamLen = s.rxParamLen := rfl
@[simp] theorem State.answering_rxId (s : State) (a : Answer) : (s.answering a).rxId = s.rxId := rfl
@[simp] theorem State.answering_rxLen (s : State) (a : Answer) : (s.answering a).rxLen = s.rxLen := rfl
@[simp] theorem State.answering_rxErr (s : State) (a : Answer) : (s.answering a).rxErr = s.rxErr := rfl
@[simp] theorem State.answering_rxSum (s : State) (a : Answer) : (s.answering a).rxSum = s.rxSum := rfl
@[simp] theorem State.answering_rxIndex (s : State) (a : Answer) : (s.answering a).rxIndex = s.rxIndex := rfl
@[simp] theorem State.answering_rxPayload (s : State) (a : Answer) : (s.answering a).rxPayload = s.rxPayload := rfl
@[simp] theorem State.answering_outcome (s : State) (a : Answer) : (s.answering a).outcome = s.outcome := rfl
@[simp] theorem State.answering_errorByte (s : State) (a : Answer) : (s.answering a).errorByte = s.errorByte := rfl
@[simp] theorem State.answering_parametersOut (s : State) (a : Answer) : (s.answering a).parametersOut = s.parametersOut := rfl
@[simp] theorem State.answering_answer (s : State) (a : Answer) : (s.answering a).answer = a := rfl
@[simp] theorem State.answering_line (s : State) (a : Answer) : (s.answering a).line = s.line := rfl
@[simp] theorem State.answering_caller (s : State) (a : Answer) : (s.answering a).caller = s.caller := rfl

/-! ### A return of RECEIVE -/

@[simp] theorem State.rxReturn_tx (s : State) (o : ErrorOutcome) (e : Byte) (p : List Byte) : (s.rxReturn o e p).tx = s.tx := rfl
@[simp] theorem State.rxReturn_rx (s : State) (o : ErrorOutcome) (e : Byte) (p : List Byte) : (s.rxReturn o e p).rx = s.rx := rfl
@[simp] theorem State.rxReturn_cnt (s : State) (o : ErrorOutcome) (e : Byte) (p : List Byte) : (s.rxReturn o e p).cnt = s.cnt := rfl
@[simp] theorem State.rxReturn_rxTimeout (s : State) (o : ErrorOutcome) (e : Byte) (p : List Byte) : (s.rxReturn o e p).rxTimeout = s.rxTimeout := rfl
@[simp] theorem State.rxReturn_rxState (s : State) (o : ErrorOutcome) (e : Byte) (p : List Byte) : (s.rxReturn o e p).rxState = .idle := rfl
@[simp] theorem State.rxReturn_txState (s : State) (o : ErrorOutcome) (e : Byte) (p : List Byte) : (s.rxReturn o e p).txState = s.txState := rfl
@[simp] theorem State.rxReturn_rxExpectedId (s : State) (o : ErrorOutcome) (e : Byte) (p : List Byte) : (s.rxReturn o e p).rxExpectedId = s.rxExpectedId := rfl
@[simp] theorem State.rxReturn_rxParamLen (s : State) (o : ErrorOutcome) (e : Byte) (p : List Byte) : (s.rxReturn o e p).rxParamLen = s.rxParamLen := rfl
@[simp] theorem State.rxReturn_rxId (s : State) (o : ErrorOutcome) (e : Byte) (p : List Byte) : (s.rxReturn o e p).rxId = s.rxId := rfl
@[simp] theorem State.rxReturn_rxLen (s : State) (o : ErrorOutcome) (e : Byte) (p : List Byte) : (s.rxReturn o e p).rxLen = s.rxLen := rfl
@[simp] theorem State.rxReturn_rxErr (s : State) (o : ErrorOutcome) (e : Byte) (p : List Byte) : (s.rxReturn o e p).rxErr = s.rxErr := rfl
@[simp] theorem State.rxReturn_rxSum (s : State) (o : ErrorOutcome) (e : Byte) (p : List Byte) : (s.rxReturn o e p).rxSum = s.rxSum := rfl
@[simp] theorem State.rxReturn_rxIndex (s : State) (o : ErrorOutcome) (e : Byte) (p : List Byte) : (s.rxReturn o e p).rxIndex = s.rxIndex := rfl
@[simp] theorem State.rxReturn_rxPayload (s : State) (o : ErrorOutcome) (e : Byte) (p : List Byte) : (s.rxReturn o e p).rxPayload = s.rxPayload := rfl
@[simp] theorem State.rxReturn_outcome (s : State) (o : ErrorOutcome) (e : Byte) (p : List Byte) : (s.rxReturn o e p).outcome = o := rfl
@[simp] theorem State.rxReturn_errorByte (s : State) (o : ErrorOutcome) (e : Byte) (p : List Byte) : (s.rxReturn o e p).errorByte = e := rfl
@[simp] theorem State.rxReturn_parametersOut (s : State) (o : ErrorOutcome) (e : Byte) (p : List Byte) : (s.rxReturn o e p).parametersOut = p := rfl
@[simp] theorem State.rxReturn_answer (s : State) (o : ErrorOutcome) (e : Byte) (p : List Byte) : (s.rxReturn o e p).answer = .received := rfl
@[simp] theorem State.rxReturn_line (s : State) (o : ErrorOutcome) (e : Byte) (p : List Byte) : (s.rxReturn o e p).line = s.line := rfl
@[simp] theorem State.rxReturn_caller (s : State) (o : ErrorOutcome) (e : Byte) (p : List Byte) : (s.rxReturn o e p).caller = s.caller := rfl

/-! ### A clearing error return of RECEIVE -/

@[simp] theorem State.rxErrorReturn_tx (s : State) (o : ErrorOutcome) (e : Byte) : (s.rxErrorReturn o e).tx = s.tx := rfl
@[simp] theorem State.rxErrorReturn_rx (s : State) (o : ErrorOutcome) (e : Byte) : (s.rxErrorReturn o e).rx = s.rx.clear := rfl
@[simp] theorem State.rxErrorReturn_cnt (s : State) (o : ErrorOutcome) (e : Byte) : (s.rxErrorReturn o e).cnt = s.cnt := rfl
@[simp] theorem State.rxErrorReturn_rxTimeout (s : State) (o : ErrorOutcome) (e : Byte) : (s.rxErrorReturn o e).rxTimeout = s.rxTimeout := rfl
@[simp] theorem State.rxErrorReturn_rxState (s : State) (o : ErrorOutcome) (e : Byte) : (s.rxErrorReturn o e).rxState = .idle := rfl
@[simp] theorem State.rxErrorReturn_txState (s : State) (o : ErrorOutcome) (e : Byte) : (s.rxErrorReturn o e).txState = s.txState := rfl
@[simp] theorem State.rxErrorReturn_rxExpectedId (s : State) (o : ErrorOutcome) (e : Byte) : (s.rxErrorReturn o e).rxExpectedId = s.rxExpectedId := rfl
@[simp] theorem State.rxErrorReturn_rxParamLen (s : State) (o : ErrorOutcome) (e : Byte) : (s.rxErrorReturn o e).rxParamLen = s.rxParamLen := rfl
@[simp] theorem State.rxErrorReturn_rxId (s : State) (o : ErrorOutcome) (e : Byte) : (s.rxErrorReturn o e).rxId = s.rxId := rfl
@[simp] theorem State.rxErrorReturn_rxLen (s : State) (o : ErrorOutcome) (e : Byte) : (s.rxErrorReturn o e).rxLen = s.rxLen := rfl
@[simp] theorem State.rxErrorReturn_rxErr (s : State) (o : ErrorOutcome) (e : Byte) : (s.rxErrorReturn o e).rxErr = s.rxErr := rfl
@[simp] theorem State.rxErrorReturn_rxSum (s : State) (o : ErrorOutcome) (e : Byte) : (s.rxErrorReturn o e).rxSum = s.rxSum := rfl
@[simp] theorem State.rxErrorReturn_rxIndex (s : State) (o : ErrorOutcome) (e : Byte) : (s.rxErrorReturn o e).rxIndex = s.rxIndex := rfl
@[simp] theorem State.rxErrorReturn_rxPayload (s : State) (o : ErrorOutcome) (e : Byte) : (s.rxErrorReturn o e).rxPayload = s.rxPayload := rfl
@[simp] theorem State.rxErrorReturn_outcome (s : State) (o : ErrorOutcome) (e : Byte) : (s.rxErrorReturn o e).outcome = o := rfl
@[simp] theorem State.rxErrorReturn_errorByte (s : State) (o : ErrorOutcome) (e : Byte) : (s.rxErrorReturn o e).errorByte = e := rfl
@[simp] theorem State.rxErrorReturn_parametersOut (s : State) (o : ErrorOutcome) (e : Byte) : (s.rxErrorReturn o e).parametersOut = [] := rfl
@[simp] theorem State.rxErrorReturn_answer (s : State) (o : ErrorOutcome) (e : Byte) : (s.rxErrorReturn o e).answer = .received := rfl
@[simp] theorem State.rxErrorReturn_line (s : State) (o : ErrorOutcome) (e : Byte) : (s.rxErrorReturn o e).line = s.line := rfl
@[simp] theorem State.rxErrorReturn_caller (s : State) (o : ErrorOutcome) (e : Byte) : (s.rxErrorReturn o e).caller = s.caller := rfl

/-! ### The start of a RECEIVE -/

@[simp] theorem State.rxStart_tx (s : State) (e : Byte) (m : Nat) : (s.rxStart e m).tx = s.tx := rfl
@[simp] theorem State.rxStart_rx (s : State) (e : Byte) (m : Nat) : (s.rxStart e m).rx = s.rx := rfl
@[simp] theorem State.rxStart_cnt (s : State) (e : Byte) (m : Nat) : (s.rxStart e m).cnt = s.cnt := rfl
@[simp] theorem State.rxStart_rxTimeout (s : State) (e : Byte) (m : Nat) : (s.rxStart e m).rxTimeout = s.rxTimeout := rfl
@[simp] theorem State.rxStart_rxState (s : State) (e : Byte) (m : Nat) : (s.rxStart e m).rxState = .collect := rfl
@[simp] theorem State.rxStart_txState (s : State) (e : Byte) (m : Nat) : (s.rxStart e m).txState = s.txState := rfl
@[simp] theorem State.rxStart_rxExpectedId (s : State) (e : Byte) (m : Nat) : (s.rxStart e m).rxExpectedId = e := rfl
@[simp] theorem State.rxStart_rxParamLen (s : State) (e : Byte) (m : Nat) : (s.rxStart e m).rxParamLen = m := rfl
@[simp] theorem State.rxStart_rxId (s : State) (e : Byte) (m : Nat) : (s.rxStart e m).rxId = s.rxId := rfl
@[simp] theorem State.rxStart_rxLen (s : State) (e : Byte) (m : Nat) : (s.rxStart e m).rxLen = s.rxLen := rfl
@[simp] theorem State.rxStart_rxErr (s : State) (e : Byte) (m : Nat) : (s.rxStart e m).rxErr = s.rxErr := rfl
@[simp] theorem State.rxStart_rxSum (s : State) (e : Byte) (m : Nat) : (s.rxStart e m).rxSum = s.rxSum := rfl
@[simp] theorem State.rxStart_rxIndex (s : State) (e : Byte) (m : Nat) : (s.rxStart e m).rxIndex = s.rxIndex := rfl
@[simp] theorem State.rxStart_rxPayload (s : State) (e : Byte) (m : Nat) : (s.rxStart e m).rxPayload = s.rxPayload := rfl
@[simp] theorem State.rxStart_outcome (s : State) (e : Byte) (m : Nat) : (s.rxStart e m).outcome = s.outcome := rfl
@[simp] theorem State.rxStart_errorByte (s : State) (e : Byte) (m : Nat) : (s.rxStart e m).errorByte = s.errorByte := rfl
@[simp] theorem State.rxStart_parametersOut (s : State) (e : Byte) (m : Nat) : (s.rxStart e m).parametersOut = s.parametersOut := rfl
@[simp] theorem State.rxStart_answer (s : State) (e : Byte) (m : Nat) : (s.rxStart e m).answer = s.answer := rfl
@[simp] theorem State.rxStart_line (s : State) (e : Byte) (m : Nat) : (s.rxStart e m).line = s.line := rfl
@[simp] theorem State.rxStart_caller (s : State) (e : Byte) (m : Nat) : (s.rxStart e m).caller = s.caller := rfl

/-! ### The transmit buffer replaced -/

@[simp] theorem State.withBuffer_tx_tx (s : State) (b : RingBuffer) : (s.withBuffer .tx b).tx = b := rfl
@[simp] theorem State.withBuffer_tx_rx (s : State) (b : RingBuffer) : (s.withBuffer .tx b).rx = s.rx := rfl
@[simp] theorem State.withBuffer_tx_cnt (s : State) (b : RingBuffer) : (s.withBuffer .tx b).cnt = s.cnt := rfl
@[simp] theorem State.withBuffer_tx_rxTimeout (s : State) (b : RingBuffer) : (s.withBuffer .tx b).rxTimeout = s.rxTimeout := rfl
@[simp] theorem State.withBuffer_tx_rxState (s : State) (b : RingBuffer) : (s.withBuffer .tx b).rxState = s.rxState := rfl
@[simp] theorem State.withBuffer_tx_txState (s : State) (b : RingBuffer) : (s.withBuffer .tx b).txState = s.txState := rfl
@[simp] theorem State.withBuffer_tx_rxExpectedId (s : State) (b : RingBuffer) : (s.withBuffer .tx b).rxExpectedId = s.rxExpectedId := rfl
@[simp] theorem State.withBuffer_tx_rxParamLen (s : State) (b : RingBuffer) : (s.withBuffer .tx b).rxParamLen = s.rxParamLen := rfl
@[simp] theorem State.withBuffer_tx_rxId (s : State) (b : RingBuffer) : (s.withBuffer .tx b).rxId = s.rxId := rfl
@[simp] theorem State.withBuffer_tx_rxLen (s : State) (b : RingBuffer) : (s.withBuffer .tx b).rxLen = s.rxLen := rfl
@[simp] theorem State.withBuffer_tx_rxErr (s : State) (b : RingBuffer) : (s.withBuffer .tx b).rxErr = s.rxErr := rfl
@[simp] theorem State.withBuffer_tx_rxSum (s : State) (b : RingBuffer) : (s.withBuffer .tx b).rxSum = s.rxSum := rfl
@[simp] theorem State.withBuffer_tx_rxIndex (s : State) (b : RingBuffer) : (s.withBuffer .tx b).rxIndex = s.rxIndex := rfl
@[simp] theorem State.withBuffer_tx_rxPayload (s : State) (b : RingBuffer) : (s.withBuffer .tx b).rxPayload = s.rxPayload := rfl
@[simp] theorem State.withBuffer_tx_outcome (s : State) (b : RingBuffer) : (s.withBuffer .tx b).outcome = s.outcome := rfl
@[simp] theorem State.withBuffer_tx_errorByte (s : State) (b : RingBuffer) : (s.withBuffer .tx b).errorByte = s.errorByte := rfl
@[simp] theorem State.withBuffer_tx_parametersOut (s : State) (b : RingBuffer) : (s.withBuffer .tx b).parametersOut = s.parametersOut := rfl
@[simp] theorem State.withBuffer_tx_answer (s : State) (b : RingBuffer) : (s.withBuffer .tx b).answer = s.answer := rfl
@[simp] theorem State.withBuffer_tx_line (s : State) (b : RingBuffer) : (s.withBuffer .tx b).line = s.line := rfl
@[simp] theorem State.withBuffer_tx_caller (s : State) (b : RingBuffer) : (s.withBuffer .tx b).caller = s.caller := rfl

/-! ### The receive buffer replaced -/

@[simp] theorem State.withBuffer_rx_tx (s : State) (b : RingBuffer) : (s.withBuffer .rx b).tx = s.tx := rfl
@[simp] theorem State.withBuffer_rx_rx (s : State) (b : RingBuffer) : (s.withBuffer .rx b).rx = b := rfl
@[simp] theorem State.withBuffer_rx_cnt (s : State) (b : RingBuffer) : (s.withBuffer .rx b).cnt = s.cnt := rfl
@[simp] theorem State.withBuffer_rx_rxTimeout (s : State) (b : RingBuffer) : (s.withBuffer .rx b).rxTimeout = s.rxTimeout := rfl
@[simp] theorem State.withBuffer_rx_rxState (s : State) (b : RingBuffer) : (s.withBuffer .rx b).rxState = s.rxState := rfl
@[simp] theorem State.withBuffer_rx_txState (s : State) (b : RingBuffer) : (s.withBuffer .rx b).txState = s.txState := rfl
@[simp] theorem State.withBuffer_rx_rxExpectedId (s : State) (b : RingBuffer) : (s.withBuffer .rx b).rxExpectedId = s.rxExpectedId := rfl
@[simp] theorem State.withBuffer_rx_rxParamLen (s : State) (b : RingBuffer) : (s.withBuffer .rx b).rxParamLen = s.rxParamLen := rfl
@[simp] theorem State.withBuffer_rx_rxId (s : State) (b : RingBuffer) : (s.withBuffer .rx b).rxId = s.rxId := rfl
@[simp] theorem State.withBuffer_rx_rxLen (s : State) (b : RingBuffer) : (s.withBuffer .rx b).rxLen = s.rxLen := rfl
@[simp] theorem State.withBuffer_rx_rxErr (s : State) (b : RingBuffer) : (s.withBuffer .rx b).rxErr = s.rxErr := rfl
@[simp] theorem State.withBuffer_rx_rxSum (s : State) (b : RingBuffer) : (s.withBuffer .rx b).rxSum = s.rxSum := rfl
@[simp] theorem State.withBuffer_rx_rxIndex (s : State) (b : RingBuffer) : (s.withBuffer .rx b).rxIndex = s.rxIndex := rfl
@[simp] theorem State.withBuffer_rx_rxPayload (s : State) (b : RingBuffer) : (s.withBuffer .rx b).rxPayload = s.rxPayload := rfl
@[simp] theorem State.withBuffer_rx_outcome (s : State) (b : RingBuffer) : (s.withBuffer .rx b).outcome = s.outcome := rfl
@[simp] theorem State.withBuffer_rx_errorByte (s : State) (b : RingBuffer) : (s.withBuffer .rx b).errorByte = s.errorByte := rfl
@[simp] theorem State.withBuffer_rx_parametersOut (s : State) (b : RingBuffer) : (s.withBuffer .rx b).parametersOut = s.parametersOut := rfl
@[simp] theorem State.withBuffer_rx_answer (s : State) (b : RingBuffer) : (s.withBuffer .rx b).answer = s.answer := rfl
@[simp] theorem State.withBuffer_rx_line (s : State) (b : RingBuffer) : (s.withBuffer .rx b).line = s.line := rfl
@[simp] theorem State.withBuffer_rx_caller (s : State) (b : RingBuffer) : (s.withBuffer .rx b).caller = s.caller := rfl

/-! ### A buffer read back -/

@[simp] theorem State.buffer_tx (s : State) : s.buffer .tx = s.tx := rfl
@[simp] theorem State.buffer_rx (s : State) : s.buffer .rx = s.rx := rfl

@[simp] theorem State.buffer_withBuffer_same (s : State) (buf : Buf) (b : RingBuffer) : (s.withBuffer buf b).buffer buf = b := by
  cases buf <;> rfl

@[simp] theorem State.buffer_answering (s : State) (a : Answer) (buf : Buf) : (s.answering a).buffer buf = s.buffer buf := by
  cases buf <;> rfl

theorem State.withBuffer_cnt (s : State) (buf : Buf) (b : RingBuffer) : (s.withBuffer buf b).cnt = s.cnt := by cases buf <;> rfl
theorem State.withBuffer_rxTimeout (s : State) (buf : Buf) (b : RingBuffer) : (s.withBuffer buf b).rxTimeout = s.rxTimeout := by cases buf <;> rfl
theorem State.withBuffer_rxState (s : State) (buf : Buf) (b : RingBuffer) : (s.withBuffer buf b).rxState = s.rxState := by cases buf <;> rfl
theorem State.withBuffer_txState (s : State) (buf : Buf) (b : RingBuffer) : (s.withBuffer buf b).txState = s.txState := by cases buf <;> rfl
theorem State.withBuffer_rxExpectedId (s : State) (buf : Buf) (b : RingBuffer) : (s.withBuffer buf b).rxExpectedId = s.rxExpectedId := by cases buf <;> rfl
theorem State.withBuffer_rxParamLen (s : State) (buf : Buf) (b : RingBuffer) : (s.withBuffer buf b).rxParamLen = s.rxParamLen := by cases buf <;> rfl
theorem State.withBuffer_rxId (s : State) (buf : Buf) (b : RingBuffer) : (s.withBuffer buf b).rxId = s.rxId := by cases buf <;> rfl
theorem State.withBuffer_rxLen (s : State) (buf : Buf) (b : RingBuffer) : (s.withBuffer buf b).rxLen = s.rxLen := by cases buf <;> rfl
theorem State.withBuffer_rxErr (s : State) (buf : Buf) (b : RingBuffer) : (s.withBuffer buf b).rxErr = s.rxErr := by cases buf <;> rfl
theorem State.withBuffer_rxSum (s : State) (buf : Buf) (b : RingBuffer) : (s.withBuffer buf b).rxSum = s.rxSum := by cases buf <;> rfl
theorem State.withBuffer_rxIndex (s : State) (buf : Buf) (b : RingBuffer) : (s.withBuffer buf b).rxIndex = s.rxIndex := by cases buf <;> rfl
theorem State.withBuffer_rxPayload (s : State) (buf : Buf) (b : RingBuffer) : (s.withBuffer buf b).rxPayload = s.rxPayload := by cases buf <;> rfl
theorem State.withBuffer_outcome (s : State) (buf : Buf) (b : RingBuffer) : (s.withBuffer buf b).outcome = s.outcome := by cases buf <;> rfl
theorem State.withBuffer_errorByte (s : State) (buf : Buf) (b : RingBuffer) : (s.withBuffer buf b).errorByte = s.errorByte := by cases buf <;> rfl
theorem State.withBuffer_parametersOut (s : State) (buf : Buf) (b : RingBuffer) : (s.withBuffer buf b).parametersOut = s.parametersOut := by cases buf <;> rfl
theorem State.withBuffer_answer (s : State) (buf : Buf) (b : RingBuffer) : (s.withBuffer buf b).answer = s.answer := by cases buf <;> rfl
theorem State.withBuffer_line (s : State) (buf : Buf) (b : RingBuffer) : (s.withBuffer buf b).line = s.line := by cases buf <;> rfl
theorem State.withBuffer_caller (s : State) (buf : Buf) (b : RingBuffer) : (s.withBuffer buf b).caller = s.caller := by cases buf <;> rfl

end Sys2Proof.Machine
end

