-- ==== Sys2Proof/Laws/Step.lean ====
section
/-! SUPPORT. The laws of a step and of a run of steps. -/

namespace Sys2Proof.Machine

/-- One step, then the others; a fault or a refusal ends the run. -/
theorem stepMany_succ (k : Nat) (s : State) : stepMany (k + 1) s = andThen (step s) (stepMany k) := rfl

/-- A state that a step leaves as it is, every number of steps leaves as it is. -/
theorem stepMany_fixed {s : State} (h : step s = .next s) (k : Nat) : stepMany k s = .next s := by
  induction k with
  | zero => rfl
  | succ k ih => rw [stepMany_succ, h, andThen_next, ih]

/-- The command on the port is executed, and leaves the port if it has completed (R4). -/
theorem step_command {s : State} {w : List Byte} {rest : List (List Byte)} {i : Instr} (hc : s.caller = w :: rest)
    (hd : decode w = .ok i) : step s = andThen (exec i s) fun t => .next t.retire := by
  simp only [step, State.command, hc, List.head?_cons, hd]

theorem step_no_command {s : State} (hc : s.caller = []) : step s = .next s := by
  simp only [step, State.command, hc, List.head?_nil]

/-- What a step that ends in a state has done: nothing, where no command stood on the port, or one instruction. -/
theorem step_next {s t : State} (h : step s = .next t) :
    s.caller = [] ∧ t = s ∨ ∃ w rest i u, s.caller = w :: rest ∧ decode w = .ok i ∧ exec i s = .next u ∧ t = u.retire := by
  rcases hc : s.caller with _ | ⟨w, rest⟩
  · rw [step_no_command hc] at h
    cases h
    exact .inl ⟨rfl, rfl⟩
  · rcases hd : decode w with e | i
    · simp only [step, State.command, hc, List.head?_cons, hd, reduceCtorEq] at h
    · rw [step_command hc hd] at h
      obtain ⟨u, hu, h⟩ := andThen_eq_next h
      cases h
      exact .inr ⟨w, rest, i, u, rfl, hd, hu, rfl⟩

end Sys2Proof.Machine
end

