-- ==== Sys2Proof/Tests/Slice0.lean ====
section
/-! SUPPORT. Tests: ill-formed terms, words written out from the spec, the spec's vectors (95_test_vectors.md) one operation at a
time, and for every obligation with hypotheses a state and operands that meet them. -/

namespace Sys2Proof.Tests

open Sys2Proof Sys2Proof.Machine

/-- So many zero bytes. -/
def zeros (n : Nat) : List Byte := List.replicate n 0#8

theorem zeros_length (n : Nat) : (zeros n).length = n := List.length_replicate

/-! ### Ill-formed terms: a packet carries at most 253 parameters (R74), the port's byte for RECEIVE at most 255 -/

theorem test_wf_ping : WellFormed (.ping 1#8 (zeros 254)) = false := by
  simp only [WellFormed, zeros_length]; rfl
theorem test_wf_readData : WellFormed (.readData 1#8 (zeros 254)) = false := by
  simp only [WellFormed, zeros_length]; rfl
theorem test_wf_writeData : WellFormed (.writeData 1#8 (zeros 254)) = false := by
  simp only [WellFormed, zeros_length]; rfl
theorem test_wf_regWrite : WellFormed (.regWrite 1#8 (zeros 254)) = false := by
  simp only [WellFormed, zeros_length]; rfl
theorem test_wf_action : WellFormed (.action 1#8 (zeros 254)) = false := by
  simp only [WellFormed, zeros_length]; rfl
theorem test_wf_reset : WellFormed (.reset 1#8 (zeros 254)) = false := by
  simp only [WellFormed, zeros_length]; rfl
theorem test_wf_syncWrite : WellFormed (.syncWrite 1#8 (zeros 254)) = false := by
  simp only [WellFormed, zeros_length]; rfl
theorem test_wf_syncRegWrite : WellFormed (.syncRegWrite 1#8 (zeros 254)) = false := by
  simp only [WellFormed, zeros_length]; rfl
theorem test_wf_receive : WellFormed (.receive 1#8 256) = false := by decide

/-! ### Decoding: packets from R70, R75 and 95_test_vectors.md section 2.2; port words from R85 -/

theorem test_decode_ping : decode [0xFF#8, 0xFF#8, 0x01#8, 0x02#8, 0x01#8, 0xFB#8] = .ok (.ping 0x01#8 []) := by decide
theorem test_decode_readData :
    decode [0xFF#8, 0xFF#8, 0x01#8, 0x04#8, 0x02#8, 0x2B#8, 0x01#8, 0xCC#8] = .ok (.readData 0x01#8 [0x2B#8, 0x01#8]) := by decide
theorem test_decode_writeData :
    decode [0xFF#8, 0xFF#8, 0x01#8, 0x05#8, 0x03#8, 0x1E#8, 0x00#8, 0x02#8, 0xD6#8] =
      .ok (.writeData 0x01#8 [0x1E#8, 0x00#8, 0x02#8]) := by decide
theorem test_decode_regWrite :
    decode [0xFF#8, 0xFF#8, 0x01#8, 0x05#8, 0x04#8, 0x1E#8, 0xFF#8, 0x03#8, 0xD5#8] =
      .ok (.regWrite 0x01#8 [0x1E#8, 0xFF#8, 0x03#8]) := by decide
theorem test_decode_action : decode [0xFF#8, 0xFF#8, 0xFE#8, 0x02#8, 0x05#8, 0xFA#8] = .ok (.action 0xFE#8 []) := by decide
theorem test_decode_reset : decode [0xFF#8, 0xFF#8, 0xFE#8, 0x02#8, 0x06#8, 0xF9#8] = .ok (.reset 0xFE#8 []) := by decide
theorem test_decode_syncWrite :
    decode [0xFF#8, 0xFF#8, 0x01#8, 0x04#8, 0x83#8, 0x1E#8, 0x01#8, 0x58#8] = .ok (.syncWrite 0x01#8 [0x1E#8, 0x01#8]) := by decide
theorem test_decode_syncRegWrite :
    decode [0xFF#8, 0xFF#8, 0xFE#8, 0x02#8, 0x84#8, 0x7B#8] = .ok (.syncRegWrite 0xFE#8 []) := by decide
theorem test_decode_checksum :
    decode [0b00000000#8, 0x01#8, 0x04#8, 0x02#8, 0x2B#8, 0x01#8] = .ok (.checksum 0x01#8 0x04#8 0x02#8 [0x2B#8, 0x01#8]) := by
  decide
theorem test_decode_frame : decode [0b00000001#8, 0x01#8, 0x01#8] = .ok (.frame 0x01#8 0x01#8 []) := by decide
theorem test_decode_rbOccupied : decode [0b00000010#8] = .ok (.rbOccupied .tx) := by decide
theorem test_decode_rbFree : decode [0b00010011#8] = .ok (.rbFree .rx) := by decide
theorem test_decode_rbPush : decode [0b00010100#8, 0xA5#8] = .ok (.rbPush .rx 0xA5#8) := by decide
theorem test_decode_rbPop : decode [0b00000101#8] = .ok (.rbPop .tx) := by decide
theorem test_decode_rbClear : decode [0b00010110#8] = .ok (.rbClear .rx) := by decide
theorem test_decode_transmit :
    decode [0b00000111#8, 0x01#8, 0x02#8, 0x2B#8, 0x01#8] = .ok (.transmit 0x01#8 0x02#8 [0x2B#8, 0x01#8]) := by decide
theorem test_decode_receive : decode [0b00001000#8, 0x01#8, 0xF9#8] = .ok (.receive 0x01#8 249) := by decide

theorem test_decode_empty : decode [] = .error .empty := by decide
theorem test_decode_reserved_select : decode [0b00001001#8] = .error (.opReserved 9) := by decide
theorem test_decode_reserved_select_last : decode [0b00001111#8, 0#8] = .error (.opReserved 15) := by decide
theorem test_decode_reserved_bits : decode [0b00100010#8] = .error .reservedBits := by decide
theorem test_decode_bad_arguments : decode [0b00000100#8] = .error (.badArguments 4) := by decide
theorem test_decode_short_packet : decode [0xFF#8, 0xFF#8, 0x01#8, 0x02#8, 0x01#8] = .error .shortPacket := by decide
theorem test_decode_bad_sync : decode [0xFF#8, 0xFE#8, 0x01#8, 0x02#8, 0x01#8, 0xFB#8] = .error .badSync := by decide
/-- 95_test_vectors.md section 4: the length of this packet is 2, not 3. -/
theorem test_decode_bad_length : decode [0xFF#8, 0xFF#8, 0x01#8, 0x03#8, 0x01#8, 0xFA#8] = .error .badLength := by decide
theorem test_decode_bad_checksum : decode [0xFF#8, 0xFF#8, 0x01#8, 0x02#8, 0x01#8, 0xFC#8] = .error .badChecksum := by decide
theorem test_decode_unknown_code : decode [0xFF#8, 0xFF#8, 0x01#8, 0x02#8, 0x07#8, 0xF5#8] = .error (.unknownCode 0x07#8) := by decide

/-! ### Table words: as the first command after reset -/

theorem test_table_ping : decodeTableWord 8 0x01 = some (.ping 0#8 []) := by decide
theorem test_table_checksum : decodeTableWord 8 0x00 = some (.checksum 0#8 0#8 0#8 []) := by decide
theorem test_table_receive : decodeTableWord 8 0x08 = some (.receive 0#8 0) := by decide
theorem test_table_rbPush_by_width : decodeTableWord 4 0x04 = some (.rbPush .tx 0#8) := by decide

/-! ### What an operation leaves, cut to a few fields -/

/-- The checksum, or another answer, of a state. -/
def answerOf : Result → Option Answer
  | .next s => some s.answer
  | _ => none

/-- Bytes sent, the cursors of `tx` and the counter. -/
def sentOf : Result → Option (List Byte × BitVec 8 × BitVec 8 × BitVec 16)
  | .next s => some (s.line.sent, s.tx.readPos, s.tx.writePos, s.cnt)
  | _ => none

/-- Bytes sent alone, where the counter takes the open reply size. -/
def bytesOf : Result → Option (List Byte)
  | .next s => some s.line.sent
  | _ => none

/-- The triple of RECEIVE, the cursors of `rx` and the counter. -/
def tripleOf : Result → Option (ErrorOutcome × Byte × List Byte × BitVec 8 × BitVec 8 × BitVec 16)
  | .next s => some (s.outcome, s.errorByte, s.parametersOut, s.rx.readPos, s.rx.writePos, s.cnt)
  | _ => none

/-- The reset state with these bytes pushed into a buffer. -/
def holding (buf : Buf) (bs : List Byte) : State := State.reset.withBuffer buf (bs.foldl RingBuffer.push RingBuffer.reset)

/-- The reset state with a command on the port. -/
def withCommand (w : List Byte) : State := { State.reset with caller := [w] }

/-- These bytes, each there at the first poll. -/
def arrivals (bs : List Byte) : List Arrival := bs.map (Arrival.mk 0)

/-- The reset state with that much owed and these bytes waiting on the line. -/
def owing (n : Nat) (bs : List Byte) : State :=
  { State.reset with cnt := BitVec.ofNat 16 n, line := { Line.reset with incoming := arrivals bs } }

/-! ### Vectors of 95_test_vectors.md, section 2 -/

theorem test_checksum_wraps : answerOf (exec (.checksum 0xFD#8 0x02#8 0x01#8 []) .reset) = some (.checksum 0xFF#8) := by decide
theorem test_checksum_value :
    answerOf (exec (.checksum 0x01#8 0x04#8 0x02#8 [0x2B#8, 0x01#8]) .reset) = some (.checksum 0xCC#8) := by decide
theorem test_frame_bytes : answerOf (exec (.frame 0x01#8 0x04#8 [0x1E#8, 0xFF#8, 0x03#8]) .reset) =
    some (.frame [0xFF#8, 0xFF#8, 0x01#8, 0x05#8, 0x04#8, 0x1E#8, 0xFF#8, 0x03#8, 0xD5#8]) := by decide
theorem test_frame_refused : exec (.frame 0x01#8 0x01#8 (zeros 254)) .reset = .refused .frameDomain := by
  simp only [exec, execFrame, zeros_length]; rfl
theorem test_rbOccupied_wraps : answerOf (exec (.rbOccupied .tx) { State.reset with tx := ⟨[], 150#8, 44#8⟩ }) =
    some (.occupied 150#8) := by decide
theorem test_rbFree_empty : answerOf (exec (.rbFree .rx) .reset) = some (.free 256#9) := by decide
theorem test_rbPush_overrun : exec (.rbPush .tx 1#8) { State.reset with tx := ⟨[], 0#8, 255#8⟩ } = .fault .rbOverrun := rfl
theorem test_rbPush_wraps : exec (.rbPush .rx 0xA5#8) { State.reset with rx := ⟨[], 255#8, 255#8⟩ } =
    .next { State.reset with rx := ⟨[(255, 0xA5#8)], 255#8, 0#8⟩, answer := .noResult } := rfl
theorem test_rbPop_wraps : exec (.rbPop .rx) { State.reset with rx := ⟨[(255, 0xA5#8)], 255#8, 0#8⟩ } =
    .next { State.reset with rx := ⟨[(255, 0xA5#8)], 0#8, 0#8⟩, answer := .popped 0xA5#8 } := rfl
theorem test_rbPop_underrun : exec (.rbPop .tx) .reset = .fault .rbUnderrun := rfl
theorem test_rbClear_keeps_cells : exec (.rbClear .tx) { State.reset with tx := ⟨[(7, 1#8)], 7#8, 13#8⟩ } =
    .next { State.reset with tx := ⟨[(7, 1#8)], 0#8, 0#8⟩, answer := .noResult } := rfl
theorem test_ping_wraps : sentOf (exec (.ping 0x01#8 []) { State.reset with tx := ⟨[], 252#8, 252#8⟩ }) =
    some ([0xFF#8, 0xFF#8, 0x01#8, 0x02#8, 0x01#8, 0xFB#8], 2#8, 2#8, 6#16) := by decide
theorem test_ping_broadcast : sentOf (exec (.ping 0xFE#8 []) .reset) =
    some ([0xFF#8, 0xFF#8, 0xFE#8, 0x02#8, 0x01#8, 0xFE#8], 6#8, 6#8, 0#16) := by decide
theorem test_readData_counts : sentOf (exec (.readData 0x01#8 [0x00#8, 0xFF#8]) .reset) =
    some ([0xFF#8, 0xFF#8, 0x01#8, 0x04#8, 0x02#8, 0x00#8, 0xFF#8, 0xF9#8], 8#8, 8#8, 261#16) := by decide
theorem test_readData_refused : exec (.readData 0x01#8 [0x2B#8]) .reset = .refused .txDomain := rfl
theorem test_writeData : sentOf (exec (.writeData 0x01#8 [0x1E#8, 0x00#8, 0x02#8]) .reset) =
    some ([0xFF#8, 0xFF#8, 0x01#8, 0x05#8, 0x03#8, 0x1E#8, 0x00#8, 0x02#8, 0xD6#8], 9#8, 9#8, 6#16) := by decide
theorem test_regWrite : bytesOf (exec (.regWrite 0x01#8 [0x1E#8, 0xFF#8, 0x03#8]) .reset) =
    some [0xFF#8, 0xFF#8, 0x01#8, 0x05#8, 0x04#8, 0x1E#8, 0xFF#8, 0x03#8, 0xD5#8] := by decide
theorem test_action : sentOf (exec (.action 0xFE#8 []) .reset) =
    some ([0xFF#8, 0xFF#8, 0xFE#8, 0x02#8, 0x05#8, 0xFA#8], 6#8, 6#8, 0#16) := by decide
theorem test_reset : bytesOf (exec (.reset 0xFE#8 []) .reset) =
    some [0xFF#8, 0xFF#8, 0xFE#8, 0x02#8, 0x06#8, 0xF9#8] := by decide
theorem test_syncWrite_unicast : sentOf (exec (.syncWrite 0x01#8 [0x1E#8, 0x01#8]) .reset) =
    some ([0xFF#8, 0xFF#8, 0x01#8, 0x04#8, 0x83#8, 0x1E#8, 0x01#8, 0x58#8], 8#8, 8#8, 0#16) := by decide
theorem test_syncRegWrite : sentOf (exec (.syncRegWrite 0xFE#8 []) .reset) =
    some ([0xFF#8, 0xFF#8, 0xFE#8, 0x02#8, 0x84#8, 0x7B#8], 6#8, 6#8, 0#16) := by decide
theorem test_transmit_gate : exec (.transmit 0x02#8 0x01#8 []) { State.reset with cnt := 6#16 } =
    .next { State.reset with cnt := 6#16, txState := .waitCounter } := rfl
theorem test_transmit_refused : exec (.transmit 0xFF#8 0x01#8 []) .reset = .refused .txDomain := rfl

/-- 95_test_vectors.md P5, step 4: the kept `0xFF` pairs with the next one. -/
theorem test_receive_resync :
    tripleOf (exec (.receive 0x01#8 0) (holding .rx [0xFF#8, 0xFF#8, 0x01#8, 0x02#8, 0x00#8, 0xFC#8, 0xFF#8])) =
      some (.noError, 0#8, [], 6#8, 7#8, 0#16) := by decide
/-- 95_test_vectors.md section 2.5: the error byte is tested before the checksum. -/
theorem test_receive_priority :
    tripleOf (exec (.receive 0x01#8 0) (holding .rx [0xFF#8, 0xFF#8, 0x01#8, 0x02#8, 0x24#8, 0x00#8])) =
      some (.generalError, 0x24#8, [], 0#8, 0#8, 0#16) := by decide

/-! ### For every obligation with hypotheses, a state and operands that meet them. The name after `meets_` is the obligation's; where
a statement has several clauses, or a range, the boundary values have a theorem each. -/

/-- The reset state with other commands keeps the invariant. -/
theorem inv_with (cs : List (List Byte)) : State.Inv { State.reset with caller := cs } :=
  ⟨RingBuffer.sound_reset, RingBuffer.sound_reset, Nat.zero_le _, rfl, .inl rfl, fun _ => rfl⟩

theorem meets_StepKeepsInvariant : ∃ s t : State, s.Inv ∧ s.caller ≠ [] ∧ step s = .next t :=
  ⟨withCommand [0x16#8], _, inv_with _, by decide, rfl⟩
theorem meets_StepKeepsResultForm : ∃ s t : State, s.ResultsInv ∧ s.caller ≠ [] ∧ step s = .next t :=
  ⟨withCommand [0x16#8], _, by unfold State.ResultsInv; decide, by decide, rfl⟩
theorem meets_UnwrittenCellsStayUnread : ∃ s : State, s.Inv ∧ s.command = some [0x05#8] := ⟨withCommand [0x05#8], inv_with _, rfl⟩
theorem meets_StepRunsDecoded : ∃ (s : State) (w : List Byte) (rest : List (List Byte)) (i : Instr), s.caller = w :: rest ∧
    decode w = .ok i := ⟨withCommand [0x12#8], _, _, _, rfl, rfl⟩
theorem meets_IdleBlockWaits : State.reset.caller = [] := rfl
theorem meets_CommandCompletesOrIsHeld_completes : ∃ (s t : State) (w : List Byte) (rest : List (List Byte)), s.Inv ∧
    s.caller = w :: rest ∧ step s = .next t ∧ t.caller = rest := ⟨withCommand [0x16#8], _, _, _, inv_with _, rfl, rfl, rfl⟩
/-- A PING while a byte is owed is held. -/
theorem meets_CommandCompletesOrIsHeld_held : ∃ (s t : State) (w : List Byte) (rest : List (List Byte)), s.Inv ∧
    s.caller = w :: rest ∧ step s = .next t ∧ t.caller = w :: rest :=
  ⟨{ State.reset with cnt := 6#16, caller := [[0x07#8, 0x01#8, 0x01#8]] }, _, _, _,
    ⟨RingBuffer.sound_reset, RingBuffer.sound_reset, by decide, rfl, .inl rfl, fun h => by cases h⟩, rfl, rfl, rfl⟩

theorem meets_DecodeInvertsEncode_packet : WellFormed (.ping 1#8 (zeros 253)) = true := by simp only [WellFormed, zeros_length]; rfl
theorem meets_DecodeInvertsEncode_port : WellFormed (.receive 1#8 255) = true := rfl
theorem meets_AcceptedPacketsAreFrames : decode (0xFF#8 :: [0xFF#8, 0x01#8, 0x02#8, 0x01#8, 0xFB#8]) = .ok (.ping 1#8 []) := by decide
theorem meets_DecodedIsWellFormed : decode [0x08#8, 0x01#8, 0xFF#8] = .ok (.receive 1#8 255) := by decide
theorem meets_ReservedSelectsRefused_first : 9#4 ≤ 9#4 ∧ (withCommand [0x09#8]).caller = [(0#3 ++ (0#1 ++ 9#4) : Byte)] :: [] := by
  decide
theorem meets_ReservedSelectsRefused_last : 9#4 ≤ 15#4 ∧ (withCommand [0x1F#8]).caller = [(0#3 ++ (1#1 ++ 15#4) : Byte)] :: [] := by
  decide

theorem meets_ChecksumDetectsOneByte_byte : ∃ t t' : State,
    exec (.checksum 1#8 4#8 2#8 [0x2B#8]) .reset = .next t ∧ exec (.checksum 1#8 4#8 2#8 [0x2C#8]) .reset = .next t' ∧
    ([1#8, 4#8, 2#8, 0x2B#8] : List Byte)[3]? ≠ ([1#8, 4#8, 2#8, 0x2C#8] : List Byte)[3]? ∧
    ∀ j, j ≠ 3 → ([1#8, 4#8, 2#8, 0x2B#8] : List Byte)[j]? = ([1#8, 4#8, 2#8, 0x2C#8] : List Byte)[j]? :=
  ⟨_, _, rfl, rfl, by decide, fun j hj => by
    match j with
    | 0 | 1 | 2 => rfl
    | 3 => exact absurd rfl hj
    | _ + 4 => rfl⟩
theorem meets_ChecksumDetectsOneByte_order : ∃ t t' : State, ([0x2B#8, 0x01#8] : List Byte).Perm [0x01#8, 0x2B#8] ∧
    exec (.checksum 1#8 4#8 2#8 [0x2B#8, 0x01#8]) .reset = .next t ∧ exec (.checksum 1#8 4#8 2#8 [0x01#8, 0x2B#8]) .reset = .next t' :=
  ⟨_, _, List.Perm.swap _ _ _, rfl, rfl⟩
theorem meets_FrameResult_most : (zeros 253).length ≤ 253 := by rw [zeros_length]
theorem meets_FrameResult_more : 254 ≤ (zeros 254).length := by rw [zeros_length]

/-- `rx` with `n` bytes of zero in it. -/
def filled (n : Nat) : State := { State.reset with rx := ⟨[(0, 0#8)], 0#8, BitVec.ofNat 8 n⟩ }

theorem meets_RbPushResult : ((filled 254).buffer .rx).occupied.toNat ≤ 254 := by decide
theorem meets_RbPopResult : 1 ≤ ((filled 1).buffer .rx).occupied.toNat ∧ ((filled 1).buffer .rx).data.read 0 = some 0#8 := by decide
theorem meets_RbPopResult_order : (State.reset.buffer .tx).occupied.toNat = 0 ∧ (zeros 255).length ≤ 255 ∧ (zeros 255)[254]? = some 0#8 :=
  ⟨rfl, by rw [zeros_length], by rw [zeros, List.getElem?_replicate]; rfl⟩
theorem meets_OccupiedAndFreeSum_push : ∃ t, exec (.rbPush .rx 1#8) (filled 254) = .next t := ⟨_, rfl⟩
theorem meets_OccupiedAndFreeSum_pop : ∃ t, exec (.rbPop .rx) (filled 1) = .next t := ⟨_, rfl⟩
theorem meets_OccupiedAndFreeSum_clear : ∃ t, exec (.rbClear .rx) (filled 255) = .next t := ⟨_, rfl⟩
theorem meets_FullAliasesEmpty : (zeros 256).length = RingBuffer.reset.free.toNat := by rw [zeros_length]; rfl
theorem meets_FullAliasesEmpty_last : (zeros 1).length = ((filled 255).buffer .rx).free.toNat := by decide
theorem meets_BrokenPreconditionsFault_full : ((filled 255).buffer .rx).occupied.toNat = 255 := by decide
theorem meets_BrokenPreconditionsFault_empty : ((filled 0).buffer .rx).occupied.toNat = 0 := by decide
/-- 250 bytes in `tx` and the six of a PING are 256. -/
theorem meets_BrokenPreconditionsFault_fills : ∃ s : State, request (.ping 0x01#8 []) = some (0x01#8, 0x01#8, []) ∧
    txAdmitted 0x01#8 0x01#8 [] = true ∧ s.txState = .idle ∧ s.cnt = 0#16 ∧
    s.tx.occupied.toNat + (([] : List Byte).length + 6) = 256 := ⟨{ State.reset with tx := ⟨[], 0#8, 250#8⟩ }, by decide⟩
theorem meets_PushAndPopCommute_low : 1 ≤ ((filled 1).buffer .rx).occupied.toNat ∧ ((filled 1).buffer .rx).occupied.toNat ≤ 254 ∧
    ((filled 1).buffer .rx).peek 0 = some 0#8 := by decide
theorem meets_PushAndPopCommute_high : 1 ≤ ((filled 254).buffer .rx).occupied.toNat ∧
    ((filled 254).buffer .rx).occupied.toNat ≤ 254 ∧ ((filled 254).buffer .rx).peek 0 = some 0#8 := by decide
theorem meets_WraparoundExample : (zeros 200).length = 200 ∧ (zeros 100).length = 100 ∧ (State.reset.buffer .tx).readPos = 0#8 ∧
    (State.reset.buffer .tx).writePos = 0#8 := ⟨zeros_length _, zeros_length _, rfl, rfl⟩

/-! #### TRANSMIT -/

theorem holds_nil (b : RingBuffer) (h : b.occupied = 0#8) : b.Holds [] := ⟨by rw [h]; rfl, fun k hk => absurd hk (by simp)⟩

/-- The reset state is ready for a TRANSMIT of any admitted size. -/
theorem ready_reset {n : Nat} (h : n ≤ 249) : ReadyToSend [] n State.reset :=
  ⟨rfl, rfl, holds_nil _ rfl, by simp; omega, fun w hw => by simp [State.reset, Line.reset] at hw⟩

/-- A line that waits for each byte, with three bytes left over in `tx`, is ready too. -/
theorem ready_leftovers : ReadyToSend [1#8, 2#8, 3#8] 0
    { holding .tx [1#8, 2#8, 3#8] with line := { Line.reset with txWaits := List.replicate 9 (.after 5) } } :=
  ⟨rfl, rfl, by unfold RingBuffer.Holds; decide, by decide, by unfold Line.Accepts; decide⟩

theorem meets_TransmitSendsFrame : (0x01#8 : Byte) ≠ 0xFF#8 ∧ (zeros 249).length ≤ 249 ∧ expectedReply 0x01#8 0x03#8 (zeros 249) = some 6 ∧
    ReadyToSend [] (zeros 249).length State.reset := by
  rw [zeros_length]; exact ⟨by decide, by decide, rfl, ready_reset (by decide)⟩
theorem meets_PingResult : (0x01#8 : Byte) ≠ 0xFF#8 ∧ ([] : List Byte).length ≤ 249 ∧ ReadyToSend [] ([] : List Byte).length State.reset :=
  ⟨by decide, by decide, ready_reset (by decide)⟩
theorem meets_PingResult_broadcast : (0xFE#8 : Byte) ≠ 0xFF#8 ∧ ([] : List Byte).length ≤ 249 ∧
    ReadyToSend [] ([] : List Byte).length State.reset := ⟨by decide, by decide, ready_reset (by decide)⟩
theorem meets_ReadDataResult_unicast : (0xFD#8 : Byte) ≠ 0xFF#8 ∧ (0xFD#8 : Byte) ≠ 0xFE#8 ∧ (zeros 247).length + 2 ≤ 249 ∧
    ReadyToSend [] ((zeros 247).length + 2) State.reset := by
  rw [zeros_length]; exact ⟨by decide, by decide, by decide, ready_reset (by decide)⟩
theorem meets_ReadDataResult_broadcast : ([] : List Byte).length ≤ 249 ∧ ReadyToSend [] ([] : List Byte).length State.reset :=
  ⟨by decide, ready_reset (by decide)⟩
theorem meets_WriteDataResult : (0x00#8 : Byte) ≠ 0xFF#8 ∧ (zeros 249).length ≤ 249 ∧ ReadyToSend [] (zeros 249).length State.reset := by
  rw [zeros_length]; exact ⟨by decide, by decide, ready_reset (by decide)⟩
theorem meets_OpenReplyCodesResult : (0x01#8 : Byte) ≠ 0xFF#8 ∧ (zeros 249).length ≤ 249 ∧
    ReadyToSend [] (zeros 249).length State.reset := by
  rw [zeros_length]; exact ⟨by decide, by decide, ready_reset (by decide)⟩
theorem meets_SyncCodesResult : (0xFE#8 : Byte) ≠ 0xFF#8 ∧ (zeros 249).length ≤ 249 ∧ ReadyToSend [] (zeros 249).length State.reset := by
  rw [zeros_length]; exact ⟨by decide, by decide, ready_reset (by decide)⟩

theorem meets_TransmitDomain_target : request (.syncRegWrite 0xFF#8 []) = some (0xFF#8, 0x84#8, []) ∧ (0xFF#8 : Byte) = 0xFF#8 := by decide
theorem meets_TransmitDomain_long : request (.ping 0x01#8 (zeros 250)) = some (0x01#8, 0x01#8, zeros 250) ∧ 249 < (zeros 250).length :=
  ⟨rfl, by rw [zeros_length]; decide⟩
theorem meets_TransmitDomain_short : request (.readData 0xFD#8 [0x2B#8]) = some (0xFD#8, 0x02#8, [0x2B#8]) ∧
    (0xFD#8 : Byte) ≠ 0xFE#8 ∧ (0x02#8 : Byte) = 0x02#8 ∧ ([0x2B#8] : List Byte).length < 2 := by decide
/-- An instruction that meets none of the three. -/
theorem meets_TransmitDomain_admitted : request (.readData 0xFE#8 []) = some (0xFE#8, 0x02#8, []) ∧
    ¬ ((0xFE#8 : Byte) = 0xFF#8 ∨ 249 < ([] : List Byte).length ∨
      ((0xFE#8 : Byte) ≠ 0xFE#8 ∧ (0x02#8 : Byte) = 0x02#8 ∧ ([] : List Byte).length < 2)) := by decide

/-- A PING to device 1 on the port, and its packet. -/
def pingWord : List Byte := [0x07#8, 0x01#8, 0x01#8]
def pingPacket : List Byte := [0xFF#8, 0xFF#8, 0x01#8, 0x02#8, 0x01#8, 0xFB#8]

theorem meets_GateHoldsForEver : ∃ s : State, s.caller = pingWord :: [] ∧ decode pingWord = .ok (.transmit 0x01#8 0x01#8 []) ∧
    request (.transmit 0x01#8 0x01#8 []) = some (0x01#8, 0x01#8, []) ∧ txAdmitted 0x01#8 0x01#8 [] = true ∧ s.cnt ≠ 0#16 ∧
    (s.txState = .idle ∨ s.txState = .waitCounter) := ⟨{ withCommand pingWord with cnt := 1#16 }, by decide⟩
theorem meets_GateHoldsForEver_packet : ∃ s : State, s.caller = pingPacket :: [] ∧ decode pingPacket = .ok (.ping 0x01#8 []) ∧
    request (.ping 0x01#8 []) = some (0x01#8, 0x01#8, []) ∧ txAdmitted 0x01#8 0x01#8 [] = true ∧ s.cnt ≠ 0#16 ∧
    (s.txState = .idle ∨ s.txState = .waitCounter) :=
  ⟨{ withCommand pingPacket with cnt := 1#16, txState := .waitCounter }, by decide⟩
/-- Free 5 is one less than the frame of a PING needs. -/
theorem meets_SpaceWaitHoldsForEver : ∃ s : State, s.caller = pingWord :: [] ∧
    decode pingWord = .ok (.transmit 0x01#8 0x01#8 []) ∧ request (.transmit 0x01#8 0x01#8 []) = some (0x01#8, 0x01#8, []) ∧
    txAdmitted 0x01#8 0x01#8 [] = true ∧ s.cnt = 0#16 ∧ s.txState = .idle ∧
    s.tx.free.toNat < ([] : List Byte).length + 6 := ⟨{ withCommand pingWord with tx := ⟨[], 0#8, 251#8⟩ }, by decide⟩

/-- A PING packet on the port, and a line that is never ready from byte `j` on. -/
def neverFrom (j : Nat) : State :=
  { withCommand pingPacket with line := { Line.reset with txWaits := List.replicate j (.after 0) ++ [.never] } }

/-- All that UnreadyLineHoldsForEver assumes, of that state and its PING. -/
def NeverFromMeets (j : Nat) : Prop :=
  (neverFrom j).caller = pingPacket :: [] ∧ decode pingPacket = .ok (.ping 0x01#8 []) ∧
  request (.ping 0x01#8 []) = some (0x01#8, 0x01#8, []) ∧ (0x01#8 : Byte) ≠ 0xFF#8 ∧ ([] : List Byte).length ≤ 249 ∧
  expectedReply 0x01#8 0x01#8 [] = some 6 ∧ (neverFrom j).txState = .idle ∧ (neverFrom j).cnt = 0#16 ∧
  (neverFrom j).tx.Holds [] ∧ ([] : List Byte).length + (([] : List Byte).length + 6) ≤ 255 ∧
  j < ([] : List Byte).length + (([] : List Byte).length + 6) ∧ (neverFrom j).line.Accepts j ∧
  (neverFrom j).line.txWaits[j]? = some .never

theorem neverFrom_meets {j : Nat} (hj : j < 6) : NeverFromMeets j :=
  ⟨rfl, by decide, rfl, by decide, by decide, rfl, rfl, rfl, holds_nil RingBuffer.reset rfl, by decide, by simpa using hj,
    fun w hw => by
      have hw : w ∈ List.replicate j (TxWait.after 0) := by simpa [neverFrom] using hw
      rw [List.eq_of_mem_replicate hw]; decide, by simp [neverFrom]⟩

theorem meets_UnreadyLineHoldsForEver_first : NeverFromMeets 0 := neverFrom_meets (by decide)
theorem meets_UnreadyLineHoldsForEver_last : NeverFromMeets 5 := neverFrom_meets (by decide)
theorem meets_SecondTransmitHangs : ∃ u : State, request (.ping 0x01#8 []) = some (0x01#8, 0x01#8, []) ∧
    request (.writeData 0xFE#8 []) = some (0xFE#8, 0x03#8, []) ∧ State.reset.txState = .idle ∧ (0x01#8 : Byte) ≠ 0xFE#8 ∧
    replyBytes 0x01#8 [] = some 6 ∧ 0 < 6 ∧ exec (.ping 0x01#8 []) .reset = .next u ∧ u.txState = .idle ∧
    txAdmitted 0xFE#8 0x03#8 [] = true := ⟨_, rfl, rfl, rfl, by decide, rfl, by decide, rfl, rfl, rfl⟩
theorem meets_TransmitLeavesReceiver : ∃ t, isTransmit (.ping 0x01#8 []) = true ∧ exec (.ping 0x01#8 []) .reset = .next t := ⟨_, rfl, rfl⟩
theorem meets_RequestsWaitForReplies : ∃ t, isTransmit (.ping 0x01#8 []) = true ∧ State.reset.txState = .idle ∧
    exec (.ping 0x01#8 []) .reset = .next t ∧ t.tx ≠ State.reset.tx := ⟨_, rfl, rfl, rfl, by decide⟩

/-! #### RECEIVE -/

/-- Bytes that are there at the first poll are delivered in time. -/
theorem delivers_arrivals (l : Line) (bs : List Byte) (more : List Arrival) (h : l.incoming = arrivals bs ++ more) :
    l.Delivers (arrivals bs) more :=
  ⟨h, fun a ha => by
    obtain ⟨b, -, rfl⟩ := List.mem_map.1 ha
    exact Config.timeoutIterations_pos⟩

theorem meets_CollectThenParse : (owing 2 [1#8, 2#8]).cnt.toNat = (arrivals [1#8, 2#8]).length ∧
    (owing 2 [1#8, 2#8]).line.Delivers (arrivals [1#8, 2#8]) [] ∧
    (owing 2 [1#8, 2#8]).rx.occupied.toNat + (arrivals [1#8, 2#8]).length ≤ 255 :=
  ⟨rfl, delivers_arrivals _ _ _ rfl, by decide⟩
/-- The last arrival that still meets the bound on a wait. -/
theorem meets_CollectThenParse_latest : ({ Line.reset with incoming := [⟨Config.timeoutIterations - 1, 7#8⟩] }).Delivers
    [⟨Config.timeoutIterations - 1, 7#8⟩] [] :=
  ⟨rfl, fun a ha => by
    rw [List.mem_singleton.1 ha]
    exact Nat.sub_lt Config.timeoutIterations_pos Nat.one_pos⟩
theorem meets_SilenceTimesOut : 0 ≤ 249 ∧ (arrivals [1#8]).length < (owing 6 [1#8]).cnt.toNat ∧
    (owing 6 [1#8]).line.Delivers (arrivals [1#8]) [] ∧ Silent [] ∧
    (owing 6 [1#8]).rx.occupied.toNat + (arrivals [1#8]).length ≤ 255 :=
  ⟨by decide, by decide, delivers_arrivals _ _ _ rfl, fun a ha => by simp at ha, by decide⟩
/-- A byte that comes one poll too late. -/
theorem meets_SilenceTimesOut_late : Silent [⟨Config.timeoutIterations, 7#8⟩] :=
  fun a ha => by simp only [List.head?_cons, Option.mem_some_iff] at ha; rw [← ha]
/-- One byte owed, waiting on the line, and `rx` accounting for 255. -/
theorem meets_FullReceiverOverruns : ∃ s : State, 249 ≤ 249 ∧ (arrivals [1#8]).length ≤ s.cnt.toNat ∧
    s.line.Delivers (arrivals [1#8]) [] ∧ s.rx.occupied.toNat + (arrivals [1#8]).length = 256 :=
  ⟨{ owing 1 [1#8] with rx := (filled 255).rx }, by decide, by decide, delivers_arrivals _ _ _ rfl, by decide⟩

/-- Past the end of a sequence nothing is adjacent, so a marker is excluded by looking inside it. -/
theorem noMarker_of (bs : List Byte)
    (h : ∀ k, k < bs.length → ¬ (bs[k]? = some Config.syncByte ∧ bs[k + 1]? = some Config.syncByte)) : NoMarker bs := by
  intro k hk
  by_cases hb : k < bs.length
  · exact h k hb hk
  · rw [List.getElem?_eq_none (by omega)] at hk; exact absurd hk.1 (by simp)

theorem noMarkerBefore_of (junk : List Byte) (h : ∀ k, k < (junk ++ [Config.syncByte]).length →
    ¬ ((junk ++ [Config.syncByte])[k]? = some Config.syncByte ∧ (junk ++ [Config.syncByte])[k + 1]? = some Config.syncByte)) :
    NoMarkerBefore junk := noMarker_of _ h

/-- Bytes whose scan ends on a lone `0xFF`, and bytes whose scan ends with nothing (95_test_vectors.md section 2.5). -/
theorem meets_NoMarkerIsHeaderError : (holding .rx [0x12#8, 0xFF#8]).cnt = 0#16 ∧ (holding .rx [0x12#8, 0xFF#8]).rx.Holds [0x12#8, 0xFF#8] ∧
    NoMarker [0x12#8, 0xFF#8] :=
  ⟨rfl, by unfold RingBuffer.Holds; decide, noMarker_of _ (by decide)⟩
theorem meets_NoMarkerIsHeaderError_other : (holding .rx [0xFF#8, 0x00#8]).cnt = 0#16 ∧
    (holding .rx [0xFF#8, 0x00#8]).rx.Holds [0xFF#8, 0x00#8] ∧ NoMarker [0xFF#8, 0x00#8] :=
  ⟨rfl, by unfold RingBuffer.Holds; decide, noMarker_of _ (by decide)⟩

/-- `rx` holding a noise byte, the marker and a body is a state at the marker. -/
def marked (body : List Byte) : State := holding .rx ([0x12#8, 0xFF#8, 0xFF#8] ++ body)

theorem marked_at {body : List Byte} (h : (marked body).rx.occupied.toNat = 3 + body.length ∧
    ∀ k, k < 3 + body.length → (marked body).rx.peek k = ([0x12#8, 0xFF#8, 0xFF#8] ++ body)[k]?) :
    (marked body).AtMarker [0x12#8] body :=
  ⟨rfl, ⟨by rw [h.1]; simp; omega, fun k hk => h.2 k (by simp at hk; omega)⟩, noMarkerBefore_of _ (by decide)⟩

theorem meets_WrongIdIsIdError : (0x02#8 : Byte) ≠ 0x01#8 ∧ (marked [0x02#8, 0x00#8]).AtMarker [0x12#8] (0x02#8 :: [0x00#8]) :=
  ⟨by decide, marked_at (by decide)⟩
theorem meets_WrongLengthIsLengthError : (0x03#8 : Byte).toNat ≠ 2 + 0 ∧ (marked [0x01#8, 0x03#8]).AtMarker [0x12#8] (0x01#8 :: 0x03#8 :: []) :=
  ⟨by decide, marked_at (by decide)⟩
theorem meets_DeviceErrorIsGeneralError : (0x24#8 : Byte) ≠ 0x00#8 ∧
    (marked [0x01#8, 0x02#8, 0x24#8]).AtMarker [0x12#8] (0x01#8 :: BitVec.ofNat 8 (0 + 2) :: 0x24#8 :: []) :=
  ⟨by decide, marked_at (by decide)⟩
theorem meets_WrongChecksumIsChecksumError : ([0x20#8] : List Byte).length ≤ 249 ∧ (marked [0x01#8, 0x03#8, 0x00#8, 0x20#8, 0xDA#8]).AtMarker
      [0x12#8] (0x01#8 :: BitVec.ofNat 8 (([0x20#8] : List Byte).length + 2) :: 0x00#8 :: ([0x20#8] ++ 0xDA#8 :: [])) ∧
    (0xDA#8 : Byte) ≠ checksumByte 0x01#8 (BitVec.ofNat 8 (([0x20#8] : List Byte).length + 2)) 0x00#8 [0x20#8] :=
  ⟨by decide, marked_at (by decide), by decide⟩
theorem meets_GoodFrameIsNoError : ([0x20#8] : List Byte).length ≤ 249 ∧ (marked [0x01#8, 0x03#8, 0x00#8, 0x20#8, 0xDB#8, 0xAA#8]).AtMarker
      [0x12#8] (0x01#8 :: BitVec.ofNat 8 (([0x20#8] : List Byte).length + 2) :: 0x00#8 :: ([0x20#8] ++
        checksumByte 0x01#8 (BitVec.ofNat 8 (([0x20#8] : List Byte).length + 2)) 0x00#8 [0x20#8] :: [0xAA#8])) :=
  ⟨by decide, marked_at (by decide)⟩
theorem meets_ShortFrameUnderruns_id : (marked []).AtMarker [0x12#8] [] := marked_at (by decide)
theorem meets_ShortFrameUnderruns_length : (marked [0x01#8]).AtMarker [0x12#8] [0x01#8] := marked_at (by decide)
theorem meets_ShortFrameUnderruns_error : (marked [0x01#8, 0x03#8]).AtMarker [0x12#8] [0x01#8, BitVec.ofNat 8 (1 + 2)] :=
  marked_at (by decide)
theorem meets_ShortFrameUnderruns_payload : ([] : List Byte).length < 1 ∧
    (marked [0x01#8, 0x03#8, 0x00#8]).AtMarker [0x12#8] (0x01#8 :: BitVec.ofNat 8 (1 + 2) :: 0x00#8 :: []) :=
  ⟨by decide, marked_at (by decide)⟩
theorem meets_ShortFrameUnderruns_checksum : ([0x20#8] : List Byte).length = 1 ∧
    (marked [0x01#8, 0x03#8, 0x00#8, 0x20#8]).AtMarker [0x12#8] (0x01#8 :: BitVec.ofNat 8 (1 + 2) :: 0x00#8 :: [0x20#8]) :=
  ⟨by decide, marked_at (by decide)⟩
theorem meets_ReceiveResultTable_header : ∃ t, exec (.receive 0x01#8 0) .reset = .next t ∧ t.outcome = .headerError := ⟨_, rfl, rfl⟩
theorem meets_ReceiveResultTable_noError : ∃ t, exec (.receive 0x01#8 1) (marked [0x01#8, 0x03#8, 0x00#8, 0x20#8, 0xDB#8]) = .next t ∧
    t.outcome = .noError ∧ t.parametersOut = [0x20#8] := ⟨_, rfl, by decide, by decide⟩
theorem meets_ReceiveResultTable_general : ∃ t, exec (.receive 0x01#8 0) (marked [0x01#8, 0x02#8, 0x24#8]) = .next t ∧
    t.outcome = .generalError := ⟨_, rfl, by decide⟩
theorem meets_ReceiveResultTable_clears : ∃ t, exec (.receive 0x01#8 0) (marked [0x02#8]) = .next t ∧ t.outcome = .idError :=
  ⟨_, rfl, by decide⟩
theorem meets_ErrorReturnEffects_header : ∃ t, exec (.receive 0x01#8 0) .reset = .next t ∧ t.outcome ≠ .noError ∧
    t.outcome = .headerError := ⟨_, rfl, by decide, rfl⟩
theorem meets_ErrorReturnEffects_clears : ∃ t, exec (.receive 0x01#8 0) (marked [0x02#8]) = .next t ∧ t.outcome ≠ .noError ∧
    t.outcome ≠ .headerError := ⟨_, rfl, by decide, by decide⟩
/-- A byte short of the two owed, then silence, `rx` holding as much as still fits. -/
theorem meets_OrderOfDetection_silence : ∃ s : State, 249 ≤ 249 ∧ (arrivals [1#8]).length < s.cnt.toNat ∧
    s.line.Delivers (arrivals [1#8]) [] ∧ Silent [] ∧ s.rx.occupied.toNat + (arrivals [1#8]).length ≤ 255 :=
  ⟨{ owing 2 [1#8] with rx := (filled 254).rx }, by decide, by decide, delivers_arrivals _ _ _ rfl, fun a ha => by simp at ha, by decide⟩
theorem meets_OrderOfDetection_header : (holding .rx [0x12#8, 0xFF#8]).cnt = 0#16 ∧
    (holding .rx [0x12#8, 0xFF#8]).rx.Holds [0x12#8, 0xFF#8] ∧ NoMarker [0x12#8, 0xFF#8] := meets_NoMarkerIsHeaderError
/-- A reply that is wrong in all four ways, and one that is right. -/
theorem meets_OrderOfDetection_wrong : ([] : List Byte).length = 0 ∧
    (marked [0x02#8, 0x03#8, 0x24#8, 0x00#8]).AtMarker [0x12#8] (0x02#8 :: 0x03#8 :: 0x24#8 :: ([] ++ 0x00#8 :: [])) :=
  ⟨rfl, marked_at (by decide)⟩
theorem meets_OrderOfDetection_right : ([] : List Byte).length = 0 ∧
    (marked [0x01#8, 0x02#8, 0x00#8, 0xFC#8]).AtMarker [0x12#8] (0x01#8 :: 0x02#8 :: 0x00#8 :: ([] ++ 0xFC#8 :: [])) :=
  ⟨rfl, marked_at (by decide)⟩
theorem meets_ReceiveLeavesTransmitter : ∃ t, exec (.receive 0x01#8 0) .reset = .next t := ⟨_, rfl⟩
theorem meets_NothingOwedNothingRead : 249 ≤ 249 ∧ State.reset.cnt = 0#16 ∧ State.reset.rx.occupied.toNat = 0 := by decide

/-- `FRAME(01, e, [20])` as the whole content of `rx` (95_test_vectors.md S1, and with the error byte 24). -/
theorem meets_FrameThenParseRecovers : ∃ f, exec (.frame 0x01#8 0x00#8 [0x20#8]) (holding .rx [0xFF#8, 0xFF#8, 0x01#8, 0x03#8, 0x00#8, 0x20#8, 0xDB#8]) =
      .next f ∧ f.answer = .frame [0xFF#8, 0xFF#8, 0x01#8, 0x03#8, 0x00#8, 0x20#8, 0xDB#8] ∧
    (holding .rx [0xFF#8, 0xFF#8, 0x01#8, 0x03#8, 0x00#8, 0x20#8, 0xDB#8]).rx.Holds
      [0xFF#8, 0xFF#8, 0x01#8, 0x03#8, 0x00#8, 0x20#8, 0xDB#8] ∧
    (holding .rx [0xFF#8, 0xFF#8, 0x01#8, 0x03#8, 0x00#8, 0x20#8, 0xDB#8]).cnt = 0#16 :=
  ⟨_, rfl, by decide, by unfold RingBuffer.Holds; decide, rfl⟩
theorem meets_FrameThenParseRecovers_error : ∃ f, exec (.frame 0x01#8 0x24#8 []) (holding .rx [0xFF#8, 0xFF#8, 0x01#8, 0x02#8, 0x24#8, 0xD8#8]) =
      .next f ∧ f.answer = .frame [0xFF#8, 0xFF#8, 0x01#8, 0x02#8, 0x24#8, 0xD8#8] ∧
    (holding .rx [0xFF#8, 0xFF#8, 0x01#8, 0x02#8, 0x24#8, 0xD8#8]).rx.Holds [0xFF#8, 0xFF#8, 0x01#8, 0x02#8, 0x24#8, 0xD8#8] ∧
    (holding .rx [0xFF#8, 0xFF#8, 0x01#8, 0x02#8, 0x24#8, 0xD8#8]).cnt = 0#16 :=
  ⟨_, rfl, by decide, by unfold RingBuffer.Holds; decide, rfl⟩
theorem meets_ReadExchangeReturnsPayload : ∃ s : State, (0x01#8 : Byte) ≠ 0xFF#8 ∧ (0x01#8 : Byte) ≠ 0xFE#8 ∧ (1#8 : Byte).toNat ≤ 249 ∧
    ([0x20#8] : List Byte).length = (1#8 : Byte).toNat ∧ ReadyToSend [] 2 s ∧ s.rx.occupied = 0#8 ∧
    s.line.Delivers (arrivals [0xFF#8, 0xFF#8, 0x01#8, 0x03#8, 0x00#8, 0x20#8, 0xDB#8]) [] ∧
    (arrivals [0xFF#8, 0xFF#8, 0x01#8, 0x03#8, 0x00#8, 0x20#8, 0xDB#8]).map Arrival.byte = frameBytes 0x01#8 0x00#8 [0x20#8] :=
  ⟨owing 0 [0xFF#8, 0xFF#8, 0x01#8, 0x03#8, 0x00#8, 0x20#8, 0xDB#8], by decide, by decide, by decide, by decide,
    ⟨rfl, rfl, holds_nil _ rfl, by decide, fun w hw => by simp [owing, Line.reset] at hw⟩, rfl,
    delivers_arrivals _ _ _ rfl, by decide⟩
theorem meets_OnlyTransceiverMovesCounter_transmit : ∃ t, State.reset.txState = .idle ∧ exec (.ping 0x01#8 []) .reset = .next t ∧
    t.cnt ≠ State.reset.cnt := ⟨_, rfl, rfl, by decide⟩
theorem meets_OnlyTransceiverMovesCounter_receive : ∃ t, State.reset.txState = .idle ∧ exec (.receive 0x01#8 0) .reset = .next t := ⟨_, rfl, rfl⟩
theorem meets_OnlyTransceiverMovesCounter_clear : ∃ t, State.reset.txState = .idle ∧ exec (.rbClear .rx) .reset = .next t := ⟨_, rfl, rfl⟩

/-! #### The software above the block -/

theorem meets_BroadcastWriteOwesNothing : ([0x19#8, 0x01#8] : List Byte).length ≤ 249 ∧
    ReadyToSend [] ([0x19#8, 0x01#8] : List Byte).length State.reset := ⟨by decide, ready_reset (by decide)⟩

/-- The two devices of 95_test_vectors.md S7, with the register 1E at offset 0. -/
def twoDevices : List Device := [⟨0x01#8, [0x00#8, 0x02#8]⟩, ⟨0x02#8, [0xFF#8, 0x03#8]⟩]

theorem meets_BuildAndSendSyncWrite : (0x1E#8 : Byte).toNat + 2 = (0x1F#8 : Byte).toNat + 1 ∧ 2 ≤ 255 ∧
    (∀ d ∈ twoDevices, 2 = 0 ∨ 0 + 2 ≤ d.mirror.length) ∧ 2 + twoDevices.length * (1 + 2) ≤ 249 ∧
    ReadyToSend [] (2 + twoDevices.length * (1 + 2)) State.reset :=
  ⟨by decide, by decide, by decide, by decide, ready_reset (by decide)⟩
/-- A last register just below the first: the span is 0. -/
theorem meets_BuildAndSendSyncWrite_none : (0x1E#8 : Byte).toNat + 0 = (0x1D#8 : Byte).toNat + 1 ∧ 0 ≤ 255 ∧
    (∀ d ∈ twoDevices, 0 = 0 ∨ 7 + 0 ≤ d.mirror.length) ∧ 2 + twoDevices.length * (1 + 0) ≤ 249 ∧
    ReadyToSend [] (2 + twoDevices.length * (1 + 0)) State.reset :=
  ⟨by decide, by decide, by decide, by decide, ready_reset (by decide)⟩

/-- Bytes sent by a sequence of the software above the block that has returned. -/
def callSent {α : Type} : CallResult α → Option (List Byte)
  | .returned _ s => some s.line.sent
  | _ => none

/-- 95_test_vectors.md S7: the frame of that sync-write. -/
theorem test_buildAndSend : callSent (buildAndSend (fun _ => 0) 0x1E#8 0x1F#8 twoDevices .reset) =
    some [0xFF#8, 0xFF#8, 0xFE#8, 0x0A#8, 0x83#8, 0x1E#8, 0x02#8, 0x01#8, 0x00#8, 0x02#8, 0x02#8, 0xFF#8, 0x03#8, 0x4D#8] := by
  decide
/-- 44_registry_syncwrite.md R205 with R6: for a last register just below the first the span is 0, and a device's block is its id. -/
theorem test_buildAndSend_none : callSent (buildAndSend (fun _ => 0) 0x1E#8 0x1D#8 twoDevices .reset) =
    some [0xFF#8, 0xFF#8, 0xFE#8, 0x06#8, 0x83#8, 0x1E#8, 0x00#8, 0x01#8, 0x02#8, 0x57#8] := by decide
/-- A range below that, and a mirror one byte too short, have no meaning (log 19). -/
theorem test_registerSpan_negative : registerSpan 0x1E#8 0x1C#8 = none := by decide
theorem test_setRange_short : setRange (fun _ => 1) ⟨0x01#8, [0xAA#8, 0xBB#8]⟩ 0x1E#8 0x1F#8 .reset = .meaningless .mirror .reset := rfl
/-- R201: the payload goes to the offset of the first register. -/
theorem test_withSlice : (⟨0x01#8, [0#8, 0#8, 0#8]⟩ : Device).withSlice 1 [0xAA#8, 0xBB#8] = some ⟨0x01#8, [0#8, 0xAA#8, 0xBB#8]⟩ := by
  decide

end Sys2Proof.Tests
end

/-! PROOFS. CHECKSUM in exact arithmetic (40_checksum_framing.md R100). -/

namespace Sys2Proof.Machine

/-- The 8-bit accumulator gives the wide sum reduced once (R100). -/
theorem byteSum_toNat (bs : List Byte) : (byteSum bs).toNat = (bs.map BitVec.toNat).sum % 256 := by
  induction bs with
  | nil => rfl
  | cons b bs ih => rw [byteSum_cons, BitVec.toNat_add, ih, List.map_cons, List.sum_cons, Nat.add_mod_mod]

/-- The checksum as a number: 255 less the wide sum modulo 256 (R100). -/
theorem checksumByte_toNat (id length instruction : Byte) (ps : List Byte) :
    (checksumByte id length instruction ps).toNat =
      255 - (id.toNat + length.toNat + instruction.toNat + (ps.map BitVec.toNat).sum) % 256 := by
  have hsum : (id + length + instruction + byteSum ps).toNat =
      (id.toNat + length.toNat + instruction.toNat + (ps.map BitVec.toNat).sum) % 256 := by
    simp only [BitVec.toNat_add, byteSum_toNat, Nat.add_mod_mod, Nat.mod_add_mod]
  rw [checksumByte, BitVec.toNat_not, hsum]

/-- The checksum as the byte of that number (R100). -/
theorem checksumByte_eq_ofNat (id length instruction : Byte) (ps : List Byte) :
    checksumByte id length instruction ps = BitVec.ofNat 8
      (255 - (id.toNat + length.toNat + instruction.toNat + (ps.map BitVec.toNat).sum) % 256) := by
  rw [← checksumByte_toNat, BitVec.ofNat_toNat, BitVec.setWidth_eq]

/-- Operation 0 completes in every state, and only the port's answer moves (R100, log 14). -/
@[simp] theorem exec_checksum (id length instruction : Byte) (ps : List Byte) (s : State) :
    exec (.checksum id length instruction ps) s = .next (s.answering (.checksum (checksumByte id length instruction ps))) := rfl

/-- Settles O14: the dispatch answers `checksumByte`, whose value is the exact formula by the arithmetic of `checksumByte_eq_ofNat`. -/
theorem checksumResult : Obligations.ChecksumResult := by
  unfold Obligations.ChecksumResult
  intro id length instruction ps s
  refine ⟨rfl, ?_⟩
  rw [exec_checksum, State.answering, checksumByte_eq_ofNat]

end Sys2Proof.Machine

/-! PROOFS. The ring-buffer operations of the command port: RB_OCCUPIED, RB_PUSH and RB_POP (41_ring_buffer.md R110, R112, R113). -/

namespace Sys2Proof.Machine

/-! ### One operation -/

/-- The 8-bit difference of the cursors as a number (R110). -/
theorem RingBuffer.occupied_toNat (b : RingBuffer) :
    b.occupied.toNat = (b.writePos.toNat + 256 - b.readPos.toNat) % 256 := by
  have := b.readPos.isLt
  rw [RingBuffer.occupied, BitVec.toNat_sub]
  omega

/-- An empty buffer holds the empty sequence, whatever its cells. -/
theorem RingBuffer.holds_nil {b : RingBuffer} (h : b.occupied.toNat = 0) : b.Holds [] :=
  ⟨h, fun k hk => absurd hk (Nat.not_lt_zero k)⟩

/-- The head of a buffer is the cell `readPos` (R113). -/
theorem RingBuffer.peek_zero (b : RingBuffer) : b.peek 0 = b.data.read b.readPos.toNat := by
  rw [RingBuffer.peek, BitVec.add_zero]

/-- Operation 2 completes in every state, and only the port's answer moves (R110, log 14). -/
@[simp] theorem exec_rbOccupied (buf : Buf) (s : State) :
    exec (.rbOccupied buf) s = .next (s.answering (.occupied (s.buffer buf).occupied)) := rfl

/-- Operation 4 with its precondition kept is the mechanical push (R112). -/
theorem exec_rbPush {buf : Buf} {s : State} (x : Byte) (h : (s.buffer buf).occupied.toNat ≠ 255) :
    exec (.rbPush buf x) s = .next ((s.withBuffer buf ((s.buffer buf).push x)).answering .noResult) := by
  rw [exec, execRbPush, RingBuffer.pushChecked_eq x h]

/-- Operation 5 with its precondition kept and the head's cell written answers that byte and passes over it (R113). -/
theorem exec_rbPop {buf : Buf} {s : State} {x : Byte} (h : (s.buffer buf).occupied.toNat ≠ 0)
    (hx : (s.buffer buf).peek 0 = some x) :
    exec (.rbPop buf) s = .next ((s.withBuffer buf (s.buffer buf).skip).answering (.popped x)) := by
  have hne : (s.buffer buf).occupied ≠ 0#8 := fun hz => h (by rw [hz]; rfl)
  rw [exec, execRbPop, if_neg hne, RingBuffer.pop_eq, hx, Option.map_some]

/-- Operation 5 on a buffer that holds a byte answers the oldest. -/
theorem exec_rbPop_cons {buf : Buf} {s : State} {x : Byte} {bs : List Byte} (h : (s.buffer buf).Holds (x :: bs)) :
    exec (.rbPop buf) s = .next ((s.withBuffer buf (s.buffer buf).skip).answering (.popped x)) :=
  exec_rbPop (by rw [h.1, List.length_cons]; omega) (by rw [h.peek (by simp)]; rfl)

/-! ### A sequence of operations -/

/-- A caller's operations in two parts: the first part, then the second from where it ends (R55). -/
theorem execSeq_append (is js : List Instr) (s : State) :
    execSeq (is ++ js) s = andThen (execSeq is s) (execSeq js) := by
  induction is generalizing s with
  | nil => rfl
  | cons i is ih =>
    rw [List.cons_append, execSeq, execSeq]
    cases exec i s with
    | next t => exact ih t
    | fault f => rfl
    | refused r => rfl

/-- Pushes that fit all complete; the buffer is then as after their bytes, one after the other (R112). -/
theorem execSeq_rbPush {buf : Buf} {s : State} {xs : List Byte}
    (h : (s.buffer buf).occupied.toNat + xs.length ≤ 255) :
    ∃ t, execSeq (xs.map (Instr.rbPush buf)) s = .next t ∧ t.buffer buf = xs.foldl RingBuffer.push (s.buffer buf) := by
  induction xs generalizing s with
  | nil => exact ⟨s, rfl, rfl⟩
  | cons x xs ih =>
    rw [List.length_cons] at h
    have hx : (s.buffer buf).occupied.toNat ≠ 255 := by omega
    have hfit : ((s.buffer buf).push x).occupied.toNat + xs.length ≤ 255 := by
      rw [RingBuffer.push_occupied_toNat x hx]; omega
    rw [List.map_cons, execSeq, exec_rbPush x hx, andThen_next]
    simpa using ih (s := (s.withBuffer buf ((s.buffer buf).push x)).answering .noResult) (by simpa using hfit)

/-- Pops of bytes the buffer holds all complete, and pass over them (R113). -/
theorem execSeq_rbPop {buf : Buf} {s : State} {as bs : List Byte} (h : (s.buffer buf).Holds (as ++ bs)) :
    ∃ t, execSeq (List.replicate as.length (Instr.rbPop buf)) s = .next t ∧
      t.buffer buf = (s.buffer buf).skipped as.length := by
  induction as generalizing s with
  | nil => exact ⟨s, rfl, (RingBuffer.skipped_zero _).symm⟩
  | cons a as ih =>
    rw [List.length_cons, List.replicate_succ, execSeq, exec_rbPop_cons h, andThen_next, ← RingBuffer.skip_skipped]
    simpa using ih (s := (s.withBuffer buf (s.buffer buf).skip).answering (.popped a)) (by simpa using h.skip)

/-- The pop that follows `k` others answers byte `k` of what the buffer held: first in, first out (R113). -/
theorem execSeq_rbPop_answer {buf : Buf} {s : State} {bs : List Byte} {k : Nat} {x : Byte} (h : (s.buffer buf).Holds bs)
    (hx : bs[k]? = some x) :
    ∃ t, execSeq (List.replicate (k + 1) (Instr.rbPop buf)) s = .next t ∧ t.answer = .popped x := by
  obtain ⟨hk, rfl⟩ := List.getElem?_eq_some_iff.mp hx
  have hlen : (bs.take k).length = k := List.length_take_of_le hk.le
  have hsplit : (s.buffer buf).Holds (bs.take k ++ bs[k] :: bs.drop (k + 1)) := by
    rwa [← List.drop_eq_getElem_cons hk, List.take_append_drop]
  obtain ⟨t, hrun, hbuf⟩ := execSeq_rbPop hsplit
  have hhead : (t.buffer buf).Holds (bs[k] :: bs.drop (k + 1)) := hbuf ▸ hsplit.skipped
  rw [hlen] at hrun
  rw [List.replicate_succ', execSeq_append, hrun, andThen_next, execSeq, exec_rbPop_cons hhead]
  exact ⟨_, rfl, rfl⟩

/-! ### The obligations -/

/-- Settles O17: the dispatch answers `occupied`, whose number is the exact formula by `RingBuffer.occupied_toNat`. -/
theorem rbOccupiedResult : Obligations.RbOccupiedResult := by
  unfold Obligations.RbOccupiedResult
  intro buf s
  refine ⟨rfl, ?_⟩
  rw [exec_rbOccupied, State.answering, ← RingBuffer.occupied_toNat, BitVec.ofNat_toNat, BitVec.setWidth_eq]

/-- Settles O19: below occupancy 255 the operation is the mechanical push, whose cell and cursors the laws of `push` and of the
array give. -/
theorem rbPushResult : Obligations.RbPushResult := by
  unfold Obligations.RbPushResult
  intro buf x s hocc
  refine ⟨rfl, (s.buffer buf).push x, exec_rbPush x (by omega), RingBuffer.push_readPos _ x, ?_, ?_, fun a ha => ?_⟩
  · rw [RingBuffer.push_writePos, BitVec.toNat_add]; rfl
  · rw [RingBuffer.push_data, Memory.read_write_same]
  · rw [RingBuffer.push_data, Memory.read_write_other _ x ha]

/-- Settles O20: one pop answers the head and passes over it; after pushes into an empty buffer the content is the bytes pushed, and
the pops deliver it in order. -/
theorem rbPopResult : Obligations.RbPopResult := by
  unfold Obligations.RbPopResult
  refine ⟨fun buf x s hocc hx => ⟨rfl, ?_⟩, fun buf xs x k s hempty hlen hx => ?_⟩
  · rw [exec_rbPop (by omega) ((RingBuffer.peek_zero _).trans hx), State.answering, RingBuffer.skip, BitVec.ofNat_add,
      BitVec.ofNat_toNat, BitVec.setWidth_eq]
  · obtain ⟨t, hpush, hbuf⟩ := execSeq_rbPush (s := s) (buf := buf) (xs := xs) (by omega)
    have hcontent : (t.buffer buf).Holds xs :=
      hbuf ▸ ((RingBuffer.holds_nil hempty).pushAll xs (by simpa using hlen)).2
    rw [execSeq_append, hpush, andThen_next]
    exact execSeq_rbPop_answer hcontent hx

end Sys2Proof.Machine

/-! PROOFS. The bytes of a command, both ways (30_encoding.md R70, R74, R76, R85; logs 2 and 3). -/

namespace Sys2Proof

/-! ### Instruction packets -/

/-- What the decoder tests of a packet, by its parameters and its last byte (R70, R72, R74, R76). -/
theorem decodePacket_concat (sync id length code c : Byte) (ps : List Byte) :
    decodePacket (sync :: id :: length :: code :: (ps ++ [c])) =
      if sync ≠ Config.syncByte then .error .badSync
      else if length.toNat ≠ ps.length + 2 then .error .badLength
      else if c ≠ Machine.checksumByte id length code ps then .error .badChecksum
      else wireInstr code id ps := by
  obtain ⟨last, more, htail⟩ := List.exists_cons_of_ne_nil (List.append_ne_nil_of_right_ne_nil ps (List.cons_ne_nil c []))
  have hps : (last :: more).dropLast = ps := by rw [← htail, List.dropLast_concat]
  have hc : (last :: more).getLast (List.cons_ne_nil last more) = c := by simp only [← htail, List.getLast_concat]
  rw [htail]
  simp only [decodePacket, hps, hc]

theorem lengthByte_toNat {n : Nat} (h : n ≤ 253) : (Machine.lengthByte n).toNat = n + 2 := by
  rw [Machine.lengthByte, BitVec.toNat_ofNat]
  omega

/-- A frame of at most 253 parameters passes every test of the decoder (R74, R76). -/
theorem decode_frameBytes {ps : List Byte} (id code : Byte) (h : ps.length ≤ 253) :
    decode (Machine.frameBytes id code ps) = wireInstr code id ps := by
  change decodePacket (_ :: id :: _ :: code :: (ps ++ [_])) = _
  rw [decodePacket_concat, if_neg (not_not.mpr rfl), if_neg (not_not.mpr (lengthByte_toNat h)), if_neg (not_not.mpr rfl)]

/-- The packets the decoder accepts are frames of at most 253 parameters (R70, R74, R76). -/
theorem decodePacket_ok {rest : List Byte} {i : Instr} (h : decodePacket rest = .ok i) :
    ∃ id code ps, ps.length ≤ 253 ∧ Config.syncByte :: rest = Machine.frameBytes id code ps ∧
      wireInstr code id ps = .ok i := by
  match rest, h with
  | sync :: id :: length :: code :: last :: more, h =>
    obtain ⟨ps, c, htail⟩ := List.eq_nil_or_concat (last :: more) |>.resolve_left (List.cons_ne_nil last more)
    rw [List.concat_eq_append] at htail
    rw [htail, decodePacket_concat] at h
    split_ifs at h with hsync hlen hsum
    rw [not_not] at hsync hlen hsum
    have hbyte : length = Machine.lengthByte ps.length := by
      rw [Machine.lengthByte, ← hlen, BitVec.ofNat_toNat, BitVec.setWidth_eq]
    refine ⟨id, code, ps, by have := length.isLt; omega, ?_, h⟩
    rw [htail, hsync, hsum, hbyte]
    rfl

/-- A wire instruction's packet is the frame of a code, a target and parameters that the decoder's table turns into it (R75). -/
theorem encode_of_wireCode {i : Instr} {code : Byte} (h : wireCode i = some code) :
    ∃ t ps, encode i = Machine.frameBytes t code ps ∧ WellFormed i = decide (ps.length ≤ 253) ∧
      wireInstr code t ps = .ok i := by
  cases i <;> cases h <;> exact ⟨_, _, rfl, rfl, rfl⟩

/-- What the table of wire codes answers has that code, and its packet is the frame of the same parts (R75). -/
theorem wireInstr_ok {code t : Byte} {ps : List Byte} {i : Instr} (h : wireInstr code t ps = .ok i) :
    wireCode i = some code ∧ encode i = Machine.frameBytes t code ps ∧ WellFormed i = decide (ps.length ≤ 253) := by
  unfold wireInstr at h
  split_ifs at h <;> cases h <;> subst code <;> exact ⟨rfl, rfl, rfl⟩

/-! ### Command-port words -/

/-- The decoder takes a select byte apart into its two fields (R85). -/
theorem decode_portWord (bufsel : BitVec 1) (op : BitVec 4) (args : List Byte) :
    decode ((0#3 ++ (bufsel ++ op)) :: args) = decodeOperation op.toNat (bufOfBit (bufsel.getLsbD 0)) args := by
  have hfields : ∀ (bufsel : BitVec 1) (op : BitVec 4), (0#3 ++ (bufsel ++ op) : Byte) ≠ Config.syncByte ∧
      (0#3 ++ (bufsel ++ op) : Byte).extractLsb' 5 3 = 0#3 ∧ (0#3 ++ (bufsel ++ op) : Byte).extractLsb' 0 4 = op ∧
      (0#3 ++ (bufsel ++ op) : Byte).getLsbD 4 = bufsel.getLsbD 0 := by decide
  obtain ⟨hsync, hzero, hop, hbuf⟩ := hfields bufsel op
  rw [decode, if_neg hsync, decodeCommand, if_neg (not_not.mpr hzero), hop, hbuf]

/-- The select byte of an operation is read back (R85). -/
theorem decode_selectByte {op : Nat} (buf : Buf) (args : List Byte) (h : op ≤ 8) :
    decode (selectByte op buf :: args) = decodeOperation op buf args := by
  have hop : (BitVec.ofNat 4 op).toNat = op := by rw [BitVec.toNat_ofNat]; omega
  rw [selectByte, decode_portWord, hop]
  cases buf <;> rfl

theorem decodeOperation_reserved {op : Nat} (buf : Buf) (args : List Byte) (h : 9 ≤ op) :
    decodeOperation op buf args = .error (.opReserved op) := by
  obtain ⟨k, rfl⟩ := Nat.exists_eq_add_of_le' h
  simp [decodeOperation]

theorem decodeOperation_wellFormed {op : Nat} {buf : Buf} {args : List Byte} {i : Instr}
    (h : decodeOperation op buf args = .ok i) : WellFormed i = true := by
  unfold decodeOperation at h
  split at h
  case h_9 e m =>
    cases h
    exact decide_eq_true (by have := m.isLt; omega)
  case h_10 => split_ifs at h
  all_goals cases h; rfl

/-! ### The obligations -/

/-- Settles O10: a wire instruction's bytes are a frame, which passes the packet's tests and whose code the table reads back; an
operation's select byte is read back, and so are its arguments. -/
theorem decodeInvertsEncode : Obligations.DecodeInvertsEncode := by
  unfold Obligations.DecodeInvertsEncode
  intro i hwf
  cases hcode : wireCode i with
  | some code =>
    obtain ⟨t, ps, henc, hlen, hi⟩ := encode_of_wireCode hcode
    rw [henc, decode_frameBytes t code (of_decide_eq_true (hlen ▸ hwf)), hi]
  | none =>
    cases i with
    | receive e m =>
      have hm : m ≤ 255 := of_decide_eq_true hwf
      rw [encode, decode_selectByte _ _ (by decide), decodeOperation, BitVec.toNat_ofNat, Nat.mod_eq_of_lt (by omega)]
    | checksum | frame | rbOccupied | rbFree | rbPush | rbPop | rbClear | transmit =>
      rw [encode, decode_selectByte _ _ (by decide)]; rfl
    | ping | readData | writeData | regWrite | action | reset | syncWrite | syncRegWrite => cases hcode

/-- Settles O11: the accepted packets are frames, and the table's answer is the instruction of that frame. -/
theorem acceptedPacketsAreFrames : Obligations.AcceptedPacketsAreFrames := by
  unfold Obligations.AcceptedPacketsAreFrames
  intro rest i h
  obtain ⟨id, code, ps, -, hframe, hi⟩ := decodePacket_ok h
  obtain ⟨hcode, henc, -⟩ := wireInstr_ok hi
  exact ⟨by rw [hcode]; rfl, henc.trans hframe.symm⟩

/-- Settles O12: a packet's length byte bounds its parameters, and RECEIVE's argument is one byte; the other operations have no
bound. -/
theorem decodedIsWellFormed : Obligations.DecodedIsWellFormed := by
  unfold Obligations.DecodedIsWellFormed
  intro w i h
  cases w with
  | nil => cases h
  | cons b rest =>
    rw [decode] at h
    split_ifs at h with hsync
    · obtain ⟨id, code, ps, hlen, -, hi⟩ := decodePacket_ok h
      obtain ⟨-, -, hwf⟩ := wireInstr_ok hi
      exact hwf.trans (decide_eq_true hlen)
    · unfold decodeCommand at h
      split_ifs at h with hzero
      exact decodeOperation_wellFormed h

namespace Machine

/-- A command that is no instruction is refused, for its reason (R81, R85). -/
theorem step_decode_error {s : State} {w : List Byte} {rest : List (List Byte)} {why : DecodeError} (hc : s.caller = w :: rest)
    (hd : decode w = .error why) : step s = .refused (refuseCommand why) := by
  simp only [step, State.command, hc, List.head?_cons, hd]

/-- Settles O13: the select byte is taken apart, and an operation number of 9 or more is the decoder's error `opReserved`. -/
theorem reservedSelectsRefused : Obligations.ReservedSelectsRefused := by
  unfold Obligations.ReservedSelectsRefused
  intro s op bufsel args rest hop hc
  exact step_decode_error hc ((decode_portWord bufsel op args).trans (decodeOperation_reserved _ args hop))

end Machine

end Sys2Proof

/-! PROOFS. CHECKSUM's laws and FRAME's bytes (40_checksum_framing.md R101, R102). -/

namespace Sys2Proof.Machine

/-- The checksum is the complement of the sum of all the bytes it covers (R100). -/
theorem checksumByte_eq_not_byteSum (id length instruction : Byte) (ps : List Byte) :
    checksumByte id length instruction ps = ~~~ byteSum (id :: length :: instruction :: ps) := by
  simp only [checksumByte, byteSum_cons, BitVec.add_assoc]

theorem byteSum_perm {bs bs' : List Byte} (h : bs.Perm bs') : byteSum bs = byteSum bs' := by
  apply BitVec.eq_of_toNat_eq
  rw [byteSum_toNat, byteSum_toNat, (h.map BitVec.toNat).sum_eq]

/-- Sequences of one length that differ in exactly one byte have different sums. -/
theorem byteSum_ne_of_one_byte {bs bs' : List Byte} {k : Nat} (hlen : bs.length = bs'.length) (hk : bs[k]? ≠ bs'[k]?)
    (hother : ∀ j, j ≠ k → bs[j]? = bs'[j]?) : byteSum bs ≠ byteSum bs' := by
  induction bs generalizing bs' k with
  | nil => exact absurd (by rw [List.length_eq_zero_iff.mp hlen.symm]) hk
  | cons b bs ih =>
    obtain ⟨b', bs', rfl⟩ := List.exists_cons_of_length_eq_add_one hlen.symm
    rw [byteSum_cons, byteSum_cons]
    cases k with
    | zero =>
      have htail : bs = bs' := List.ext_getElem? fun j => hother (j + 1) (Nat.succ_ne_zero j)
      have hhead : b ≠ b' := fun hb => hk (by rw [hb]; rfl)
      rw [htail]
      exact fun hsum => hhead ((BitVec.add_left_inj _).mp hsum)
    | succ k =>
      have hhead : b = b' := Option.some.inj (hother 0 (Nat.succ_ne_zero k).symm)
      rw [hhead]
      exact fun hsum => ih (Nat.succ.inj hlen) hk (fun j hj => hother (j + 1) fun h => hj (Nat.succ.inj h))
        ((BitVec.add_right_inj _).mp hsum)

/-- Settles O15: the answer is the complement of the sum of the bytes; a sum does not see the order and does see one byte. -/
theorem checksumDetectsOneByte : Obligations.ChecksumDetectsOneByte := by
  unfold Obligations.ChecksumDetectsOneByte
  refine ⟨?stable, ?oneByte, ?reordered, by decide⟩
  case stable =>
    intro id length instruction ps s s' t t' ht ht'
    cases ht; cases ht'; rfl
  case oneByte =>
    intro id length instruction id' length' instruction' ps ps' k s t t' hk hother hlen ht ht'
    cases ht; cases ht'
    have hsum := byteSum_ne_of_one_byte (by simp only [List.length_cons, hlen]) hk hother
    rw [State.answering_answer, State.answering_answer, checksumByte_eq_not_byteSum, checksumByte_eq_not_byteSum]
    exact fun h => hsum (BitVec.not_inj.mp (Answer.checksum.inj h))
  case reordered =>
    intro id length instruction ps ps' s t t' hperm ht ht'
    cases ht; cases ht'
    rw [State.answering_answer, State.answering_answer, checksumByte, checksumByte, byteSum_perm hperm]

/-- FRAME within its domain answers the frame, and only the port's answer moves (R102, log 14). -/
theorem exec_frame {ps : List Byte} (id instruction : Byte) (s : State) (h : ps.length ≤ 253) :
    exec (.frame id instruction ps) s = .next (s.answering (.frame (frameBytes id instruction ps))) := if_pos h

/-- The bytes of a frame with the length byte and the checksum in exact arithmetic (R70, R74, R76). -/
theorem frameBytes_eq {ps : List Byte} (id instruction : Byte) (h : ps.length ≤ 253) :
    frameBytes id instruction ps = [0xFF#8, 0xFF#8, id, BitVec.ofNat 8 (ps.length + 2), instruction] ++ ps ++
      [BitVec.ofNat 8 (255 - (id.toNat + (ps.length + 2) + instruction.toNat + (ps.map BitVec.toNat).sum) % 256)] := by
  rw [← lengthByte_toNat h, ← checksumByte_eq_ofNat, BitVec.ofNat_toNat, BitVec.setWidth_eq]
  rfl

/-- Settles O16: within the domain the answer is the frame, whose last byte is the exact formula; above it the refusal. -/
theorem frameResult : Obligations.FrameResult := by
  unfold Obligations.FrameResult
  intro id instruction ps s
  refine ⟨rfl, fun hle => ?_, fun hgt => ?_⟩
  · rw [exec_frame id instruction s hle, State.answering, frameBytes_eq id instruction hle]
  · exact if_neg (by rw [Config.maxParamsFrame]; omega)

end Sys2Proof.Machine

/-! PROOFS. The ring buffers: RB_FREE and RB_CLEAR, occupancy, aliasing, commutation and wrap-around (41_ring_buffer.md R111,
R114 to R118; 20_memory.md R58). -/

namespace Sys2Proof.Machine

/-! ### One operation -/

/-- Operation 3 completes in every state, and only the port's answer moves (R111, log 14). -/
@[simp] theorem exec_rbFree (buf : Buf) (s : State) :
    exec (.rbFree buf) s = .next (s.answering (.free (s.buffer buf).free)) := rfl

/-- Operation 6 completes in every state with the buffer cleared (R114). -/
@[simp] theorem exec_rbClear (buf : Buf) (s : State) :
    exec (.rbClear buf) s = .next ((s.withBuffer buf (s.buffer buf).clear).answering .noResult) := rfl

/-- At occupancy 255 operation 4 is the fault of the broken precondition (R117). -/
theorem exec_rbPush_full {buf : Buf} {s : State} (x : Byte) (h : (s.buffer buf).occupied.toNat = 255) :
    exec (.rbPush buf x) s = .fault .rbOverrun := by
  rw [exec, execRbPush, RingBuffer.pushChecked_full x h]

/-- At occupancy 0 operation 5 is the fault of the broken precondition (R117). -/
theorem exec_rbPop_empty {buf : Buf} {s : State} (h : (s.buffer buf).occupied.toNat = 0) :
    exec (.rbPop buf) s = .fault .rbUnderrun := by
  rw [exec, execRbPop, if_pos (BitVec.eq_of_toNat_eq h)]

/-- A push that completes found its precondition kept (R112). -/
theorem exec_rbPush_next {buf : Buf} {x : Byte} {s t : State} (h : exec (.rbPush buf x) s = .next t) :
    (s.buffer buf).occupied.toNat ≠ 255 ∧ t = (s.withBuffer buf ((s.buffer buf).push x)).answering .noResult := by
  have hne : (s.buffer buf).occupied.toNat ≠ 255 := fun hfull => by
    rw [exec_rbPush_full x hfull] at h; cases h
  rw [exec_rbPush x hne] at h
  cases h
  exact ⟨hne, rfl⟩

/-- A pop that completes found its precondition kept and the head's cell written (R113). -/
theorem exec_rbPop_next {buf : Buf} {s t : State} (h : exec (.rbPop buf) s = .next t) :
    (s.buffer buf).occupied.toNat ≠ 0 ∧
      ∃ x, t = (s.withBuffer buf (s.buffer buf).skip).answering (.popped x) := by
  have hne : (s.buffer buf).occupied.toNat ≠ 0 := fun hempty => by
    rw [exec_rbPop_empty hempty] at h; cases h
  refine ⟨hne, ?_⟩
  cases hx : (s.buffer buf).peek 0 with
  | some x =>
    rw [exec_rbPop hne hx] at h
    cases h
    exact ⟨x, rfl⟩
  | none =>
    rw [exec, execRbPop, if_neg fun hz => hne (by rw [hz]; rfl), RingBuffer.pop_eq, hx, Option.map_none] at h
    cases h

/-! ### Occupancy and content -/

theorem RingBuffer.occupied_add_free (b : RingBuffer) : b.occupied.toNat + b.free.toNat = 256 := by
  have := b.occupied.isLt
  rw [RingBuffer.free_toNat]
  omega

/-- Unchecked pushes move occupancy by their number, modulo 256 (R116). -/
theorem RingBuffer.foldl_push_occupied (b : RingBuffer) (xs : List Byte) :
    (xs.foldl RingBuffer.push b).occupied = b.occupied + BitVec.ofNat 8 xs.length := by
  induction xs generalizing b with
  | nil => rw [List.foldl_nil, List.length_nil, BitVec.add_zero]
  | cons x xs ih =>
    rw [List.foldl_cons, ih, List.length_cons, BitVec.ofNat_add]
    simp only [RingBuffer.occupied, RingBuffer.push_writePos, RingBuffer.push_readPos]
    bv_omega

/-- A push behind a head that is passed over: the order of the two does not matter (R58). -/
theorem RingBuffer.skip_push (b : RingBuffer) (x : Byte) : (b.push x).skip = b.skip.push x := rfl

@[simp] theorem State.withBuffer_withBuffer (s : State) (buf : Buf) (b b' : RingBuffer) :
    (s.withBuffer buf b).withBuffer buf b' = s.withBuffer buf b' := by cases buf <;> rfl

@[simp] theorem State.answering_withBuffer (s : State) (a : Answer) (buf : Buf) (b : RingBuffer) :
    (s.answering a).withBuffer buf b = (s.withBuffer buf b).answering a := by cases buf <;> rfl

@[simp] theorem State.answering_answering (s : State) (a a' : Answer) : (s.answering a).answering a' = s.answering a' := rfl

/-! ### The obligations -/

/-- Settles O18: the dispatch answers `free`, whose number is 256 less the occupancy. -/
theorem rbFreeResult : Obligations.RbFreeResult := by
  unfold Obligations.RbFreeResult
  intro buf s
  have hlt := (s.buffer buf).occupied.isLt
  have hfree := (s.buffer buf).free_toNat
  refine ⟨rfl, (s.buffer buf).free, exec_rbFree buf s, ?_, ?_, ?_⟩
  · rw [hfree, RingBuffer.occupied_toNat]
  · omega
  · omega

/-- Settles O21: the dispatch clears the named buffer, and to clear what is cleared changes nothing. -/
theorem rbClearResult : Obligations.RbClearResult := by
  unfold Obligations.RbClearResult
  intro buf s
  refine ⟨rfl, _, exec_rbClear buf s, rfl, ?_⟩
  rw [exec_rbClear, State.buffer_answering, State.buffer_withBuffer_same, State.answering_withBuffer,
    State.withBuffer_withBuffer, State.answering_answering]
  rfl

/-- Settles O22: free is 256 less occupied, and a completed operation moves occupied as its buffer law says. -/
theorem occupiedAndFreeSum : Obligations.OccupiedAndFreeSum := by
  unfold Obligations.OccupiedAndFreeSum
  intro buf s
  have hsum := (s.buffer buf).occupied_add_free
  refine ⟨hsum, fun x t ht => ?push, fun t ht => ?pop, fun t ht => ?clear⟩
  case push =>
    obtain ⟨hne, rfl⟩ := exec_rbPush_next ht
    have hocc := RingBuffer.push_occupied_toNat x hne
    have hsum' := ((s.buffer buf).push x).occupied_add_free
    rw [State.buffer_answering, State.buffer_withBuffer_same]
    omega
  case pop =>
    obtain ⟨hne, x, rfl⟩ := exec_rbPop_next ht
    have hocc := RingBuffer.skip_occupied_toNat hne
    have hsum' := (s.buffer buf).skip.occupied_add_free
    rw [State.buffer_answering, State.buffer_withBuffer_same]
    omega
  case clear =>
    cases ht
    rw [State.buffer_answering, State.buffer_withBuffer_same, RingBuffer.free_toNat, RingBuffer.clear_occupied]
    exact ⟨rfl, rfl⟩

/-- Settles O23: the occupancy moves by the number of pushes modulo 256, which is 0 after `freeSize()` of them. -/
theorem fullAliasesEmpty : Obligations.FullAliasesEmpty := by
  unfold Obligations.FullAliasesEmpty
  intro b xs hlen
  have hocc : (xs.foldl RingBuffer.push b).occupied = 0#8 := by
    have hsum := b.occupied_add_free
    rw [RingBuffer.foldl_push_occupied, hlen]
    bv_omega
  refine ⟨hocc, ?_⟩
  rw [RingBuffer.free, hocc]
  rfl

/-- Settles O25: a push writes behind the unread bytes, so the head is the same before and after it, and moving the head commutes
with the write. -/
theorem pushAndPopCommute : Obligations.PushAndPopCommute := by
  unfold Obligations.PushAndPopCommute
  intro buf x y s hlow hhigh hy
  have hpush := RingBuffer.push_occupied_toNat (b := s.buffer buf) x (by omega)
  have hskip := RingBuffer.skip_occupied_toNat (b := s.buffer buf) (by omega)
  have hhead : ((s.buffer buf).push x).peek 0 = some y := by rw [RingBuffer.peek_push_before _ _ (by omega), hy]
  refine ⟨_, _, _, _, exec_rbPush x (by omega), exec_rbPop ?_ ?_, exec_rbPop (by omega) hy, exec_rbPush x ?_, rfl, rfl, ?_⟩
  · rw [State.buffer_answering, State.buffer_withBuffer_same]; omega
  · rw [State.buffer_answering, State.buffer_withBuffer_same, hhead]
  · rw [State.buffer_answering, State.buffer_withBuffer_same]; omega
  · simp only [State.buffer_answering, State.buffer_withBuffer_same, State.answering_withBuffer,
      State.withBuffer_withBuffer, RingBuffer.skip_push]
    rfl

/-- Settles O26: 200 pushes into an empty buffer, 150 pops of them and 100 pushes behind the other 50. -/
theorem wraparoundExample : Obligations.WraparoundExample := by
  unfold Obligations.WraparoundExample
  intro buf xs ys s hxs hys hread hwrite
  have hempty : (s.buffer buf).occupied.toNat = 0 := by rw [RingBuffer.occupied, hread, hwrite]; rfl
  obtain ⟨t₁, hrun₁, hbuf₁⟩ := execSeq_rbPush (buf := buf) (s := s) (xs := xs) (by omega)
  have hholds₁ : (t₁.buffer buf).Holds (xs.take 150 ++ xs.drop 150) := by
    rw [hbuf₁, List.take_append_drop]
    exact ((RingBuffer.holds_nil hempty).pushAll xs (by simp [hxs])).2
  have hpops : (xs.take 150).length = 150 := List.length_take_of_le (by omega)
  obtain ⟨t₂, hrun₂, hbuf₂⟩ := execSeq_rbPop hholds₁
  have hholds₂ : (t₂.buffer buf).Holds (xs.drop 150) := hbuf₂ ▸ hholds₁.skipped
  rw [hpops] at hrun₂ hbuf₂
  have hrest : (xs.drop 150).length + ys.length = 150 := by rw [List.length_drop, hxs, hys]
  obtain ⟨t₃, hrun₃, hbuf₃⟩ := execSeq_rbPush (buf := buf) (s := t₂) (xs := ys) (by rw [hholds₂.1]; omega)
  have hholds₃ : (t₃.buffer buf).Holds (xs.drop 150 ++ ys) := hbuf₃ ▸ (hholds₂.pushAll ys (by omega)).2
  have hocc : (t₃.buffer buf).occupied.toNat = 150 := by rw [hholds₃.1, List.length_append, hrest]
  obtain ⟨hr₁, hw₁, -, -⟩ := RingBuffer.foldl_push xs (s.buffer buf) (by omega)
  obtain ⟨hr₃, hw₃, -, -⟩ := RingBuffer.foldl_push ys (t₂.buffer buf) (by omega)
  refine ⟨t₃, ?_, ?_, ?_, hocc, by rw [RingBuffer.free_toNat, hocc], hholds₃⟩
  · rw [execSeq_append, execSeq_append, hrun₁, andThen_next, hrun₂, andThen_next, hrun₃]
  · rw [hbuf₃, hr₃, hbuf₂, RingBuffer.skipped, hbuf₁, hr₁, hread]; rfl
  · rw [hbuf₃, hw₃, hbuf₂, RingBuffer.skipped, hbuf₁, hw₁, hwrite, hxs, hys]; rfl

end Sys2Proof.Machine

/-! PROOFS. TRANSMIT's sequencer, run from any state a call can find it in (42_transmit.md R130 to R135, R145 to R148). -/

namespace Sys2Proof.Machine

/-! ### The domain (R145) -/

/-- Every request but a unicast READ_DATA with fewer than two parameters has a reply size (R133, R144). -/
theorem expectedReply_isSome {t code : Byte} {ps : List Byte} :
    (expectedReply t code ps).isSome = true ↔ ¬ (t ≠ 0xFE#8 ∧ code = 0x02#8 ∧ ps.length < 2) := by
  unfold expectedReply replyBytes Config.broadcastId
  by_cases ht : t = 0xFE#8
  · rw [if_pos ht]
    exact iff_of_true rfl fun h => h.1 ht
  rw [if_neg ht]
  by_cases hread : code = 0x02#8
  · rw [hread, if_neg (by decide), if_pos (show (0x02#8 : Byte) = readDataCode from rfl), Option.isSome_map,
      isSome_getElem?]
    simp only [ne_eq, ht, not_false_eq_true, true_and, not_lt, Nat.succ_le_iff]
  · rw [if_neg (show ¬ code = readDataCode from hread)]
    refine iff_of_true ?_ fun h => hread h.2.1
    split_ifs <;> rfl

theorem txAdmitted_iff {t code : Byte} {ps : List Byte} :
    txAdmitted t code ps = true ↔ t ≠ 0xFF#8 ∧ ps.length ≤ 249 ∧ ∃ r, expectedReply t code ps = some r := by
  rw [txAdmitted, Bool.and_eq_true, Bool.and_eq_true, bne_iff_ne, decide_eq_true_iff, Option.isSome_iff_exists, and_assoc]
  rfl

/-! ### One state of the sequencer, its wait passed or not -/

section
variable {t code : Byte} {ps : List Byte} {s : State}

theorem txTick_gate_held (hst : s.txState = .waitCounter) (hc : s.cnt ≠ 0#16) : txTick t code ps s = .next s := by
  simp only [txTick, hst, if_neg hc]

theorem txTick_gate_passed (hst : s.txState = .waitCounter) (hc : s.cnt = 0#16) :
    txTick t code ps s = .next { s with txState := .waitSpace } := by
  simp only [txTick, hst, if_pos hc]

theorem txTick_space_held (hst : s.txState = .waitSpace) (hf : s.tx.free.toNat < ps.length + 6) :
    txTick t code ps s = .next s := by
  simp only [txTick, hst, if_neg (Nat.not_le.mpr hf)]

theorem txTick_space_passed (hst : s.txState = .waitSpace) (hf : ps.length + 6 ≤ s.tx.free.toNat) :
    txTick t code ps s = .next { s with txState := .count } := by
  simp only [txTick, hst, if_pos hf]

theorem txTick_count {r : Nat} (hst : s.txState = .count) (hr : expectedReply t code ps = some r) :
    txTick t code ps s = .next { s with cnt := s.cnt + BitVec.ofNat 16 r, txState := .push } := by
  simp only [txTick, hst, hr, Option.getD_some]

theorem txTick_push_full (hst : s.txState = .push) (hp : s.tx.pushAll (frameBytes t code ps) = none) :
    txTick t code ps s = .fault .rbOverrun := by
  simp only [txTick, hst, hp]

theorem txTick_push {tx : RingBuffer} (hst : s.txState = .push) (hp : s.tx.pushAll (frameBytes t code ps) = some tx) :
    txTick t code ps s = .next { s with tx := tx, txState := .drain } := by
  simp only [txTick, hst, hp]

theorem txTick_drain (hst : s.txState = .drain) : txTick t code ps s = txDrain s.tx.occupied.toNat s := by
  simp only [txTick, hst]

theorem txTick_refused {r : Refusal} : txTick t code ps s ≠ .refused r := by
  unfold txTick
  split
  case h_5 => split <;> simp
  case h_6 => exact txDrain_refused
  all_goals simp

/-! ### A run of states -/

theorem txRun_succ {k : Nat} {u : State} (h : txTick t code ps s = .next u) :
    txRun t code ps (k + 1) s = txRun t code ps k u := by
  rw [txRun, h, andThen_next]

theorem txRun_fault {k : Nat} {f : Fault} (h : txTick t code ps s = .fault f) : txRun t code ps (k + 1) s = .fault f := by
  rw [txRun, h, andThen_fault]

/-- A state that the sequencer stays in, every number of ticks stays in. -/
theorem txRun_fixed (h : txTick t code ps s = .next s) (k : Nat) : txRun t code ps k s = .next s := by
  induction k with
  | zero => rfl
  | succ k ih => rw [txRun_succ h, ih]

theorem txRun_refused {k : Nat} {r : Refusal} : txRun t code ps k s ≠ .refused r := by
  induction k generalizing s with
  | zero => simp [txRun]
  | succ k ih =>
    cases h : txTick t code ps s with
    | next u => rw [txRun_succ h]; exact ih
    | fault f => simp [txRun_fault h]
    | refused r' => exact absurd h txTick_refused

end

/-- A drain ends with `tx` empty, or where the line is not ready, and there it would be held again (R135). -/
theorem txDrain_done_or_fixed {k : Nat} {s u : State} (h : txDrain k s = .next u) (hk : k = s.tx.occupied.toNat) :
    u.txState = .idle ∨ txDrain u.tx.occupied.toNat u = .next u := by
  induction k generalizing s with
  | zero => cases h; exact .inl rfl
  | succ k ih =>
    unfold txDrain at h
    split at h
    · rename_i hready
      cases h
      refine .inr ?_
      rw [← hk]
      simp only [txDrain, hready]
    · split at h
      · cases h
      · rename_i b tx hpop
        obtain ⟨x, -, hx⟩ := Option.map_eq_some_iff.mp hpop
        cases hx
        exact ih h (by simp only; rw [RingBuffer.skip_occupied_toNat (by omega)]; omega)

section
variable {t code : Byte} {ps : List Byte} {s : State}

/-- Once in `Drain`, the ticks that are left do what one drain does. -/
theorem txRun_drain (hst : s.txState = .drain) (k : Nat) :
    txRun t code ps (k + 1) s = txDrain s.tx.occupied.toNat s := by
  cases h : txDrain s.tx.occupied.toNat s with
  | fault f => exact txRun_fault ((txTick_drain hst).trans h)
  | refused r => exact absurd h txDrain_refused
  | next u =>
    rw [txRun_succ ((txTick_drain hst).trans h)]
    refine txRun_fixed ?_ k
    rcases txDrain_done_or_fixed h rfl with hidle | hfixed
    · simp only [txTick, hidle]
    · obtain ⟨j, bs, -, hstate, -⟩ := txDrain_next h
      rcases hstate with ⟨hidle, -⟩ | hdrain
      · simp only [txTick, hidle]
      · exact (txTick_drain (hdrain.trans hst)).trans hfixed

/-! ### A call, by the first wait that holds it (R130 to R135) -/

/-- Outside the domain a call is refused, inside it never (R145). -/
theorem transmit_refused_iff : transmit t code ps s = .refused .txDomain ↔ txAdmitted t code ps = false := by
  unfold transmit
  cases txAdmitted t code ps with
  | true => exact iff_of_false txRun_refused (by decide)
  | false => exact iff_of_true rfl rfl

theorem transmit_eq_txRun (ha : txAdmitted t code ps = true) (hst : s.txState = .idle ∨ s.txState = .waitCounter) :
    transmit t code ps s = txRun t code ps 5 { s with txState := .waitCounter } := by
  rw [transmit, if_pos ha]
  rcases hst with hst | hst
  · rw [if_pos hst]
  · rw [if_neg (by rw [hst]; decide)]
    cases s; cases hst; rfl

/-- With bytes owed the call is held at the gate (R131). -/
theorem transmit_gate (ha : txAdmitted t code ps = true) (hst : s.txState = .idle ∨ s.txState = .waitCounter)
    (hc : s.cnt ≠ 0#16) : transmit t code ps s = .next { s with txState := .waitCounter } := by
  rw [transmit_eq_txRun ha hst]
  exact txRun_fixed (txTick_gate_held (s := { s with txState := .waitCounter }) rfl hc) 5

/-- With nothing owed the call comes to the space wait (R132). -/
theorem transmit_past_gate (ha : txAdmitted t code ps = true)
    (hst : s.txState = .idle ∨ s.txState = .waitCounter ∨ s.txState = .waitSpace) (hc : s.cnt = 0#16) :
    ∃ k, transmit t code ps s = txRun t code ps (k + 4) { s with txState := .waitSpace } := by
  rw [← or_assoc] at hst
  rcases hst with hst | hst
  · exact ⟨0, (transmit_eq_txRun ha hst).trans (txRun_succ
      (txTick_gate_passed (s := { s with txState := .waitCounter }) rfl hc))⟩
  · refine ⟨1, ?_⟩
    rw [transmit, if_pos ha, if_neg (by rw [hst]; decide)]
    cases s; cases hst; rfl

/-- With nothing owed and too little room the call is held in the space wait (R132). -/
theorem transmit_space (ha : txAdmitted t code ps = true)
    (hst : s.txState = .idle ∨ s.txState = .waitCounter ∨ s.txState = .waitSpace) (hc : s.cnt = 0#16)
    (hf : s.tx.free.toNat < ps.length + 6) : transmit t code ps s = .next { s with txState := .waitSpace } := by
  obtain ⟨k, hk⟩ := transmit_past_gate ha hst hc
  rw [hk]
  exact txRun_fixed (txTick_space_held (s := { s with txState := .waitSpace }) rfl hf) _

/-- With nothing owed and room for the frame the call comes to the push, the counter raised (R133, R134). -/
theorem transmit_past_space {r : Nat} (ha : txAdmitted t code ps = true) (hr : expectedReply t code ps = some r)
    (hst : s.txState = .idle ∨ s.txState = .waitCounter ∨ s.txState = .waitSpace) (hc : s.cnt = 0#16)
    (hf : ps.length + 6 ≤ s.tx.free.toNat) :
    ∃ k, transmit t code ps s =
      txRun t code ps (k + 2) { s with cnt := s.cnt + BitVec.ofNat 16 r, txState := .push } := by
  obtain ⟨k, hk⟩ := transmit_past_gate ha hst hc
  have hpass := txTick_space_passed (t := t) (code := code) (s := { s with txState := .waitSpace }) rfl hf
  exact ⟨k, hk.trans ((txRun_succ hpass).trans (txRun_succ (txTick_count rfl hr)))⟩

/-- A frame that does not fit behind what `tx` holds, though the space wait lets it pass, is the fault of its last push (R117,
log 12). -/
theorem transmit_overrun (ha : txAdmitted t code ps = true)
    (hst : s.txState = .idle ∨ s.txState = .waitCounter ∨ s.txState = .waitSpace) (hc : s.cnt = 0#16)
    (hf : ps.length + 6 ≤ s.tx.free.toNat) (hp : s.tx.pushAll (frameBytes t code ps) = none) :
    transmit t code ps s = .fault .rbOverrun := by
  obtain ⟨-, -, r, hr⟩ := txAdmitted_iff.mp ha
  obtain ⟨k, hk⟩ := transmit_past_space ha hr hst hc hf
  have hpush := txTick_push_full (s := { s with cnt := s.cnt + BitVec.ofNat 16 r, txState := .push }) rfl hp
  exact hk.trans (txRun_fault hpush)

/-- With nothing owed and room for the frame the call counts, pushes and drains (R133 to R135). -/
theorem transmit_drains {r : Nat} {tx : RingBuffer} (ha : txAdmitted t code ps = true) (hr : expectedReply t code ps = some r)
    (hst : s.txState = .idle ∨ s.txState = .waitCounter ∨ s.txState = .waitSpace) (hc : s.cnt = 0#16)
    (hf : ps.length + 6 ≤ s.tx.free.toNat) (hp : s.tx.pushAll (frameBytes t code ps) = some tx) :
    transmit t code ps s =
      txDrain tx.occupied.toNat { s with tx := tx, cnt := s.cnt + BitVec.ofNat 16 r, txState := .drain } := by
  obtain ⟨k, hk⟩ := transmit_past_space ha hr hst hc hf
  have hpush := txTick_push (s := { s with cnt := s.cnt + BitVec.ofNat 16 r, txState := .push }) rfl hp
  exact hk.trans ((txRun_succ hpush).trans (txRun_drain rfl k))

/-- A call found in `Drain` goes on draining (R135, log 11). -/
theorem transmit_resumes (ha : txAdmitted t code ps = true) (hst : s.txState = .drain) :
    transmit t code ps s = txDrain s.tx.occupied.toNat s := by
  rw [transmit, if_pos ha, if_neg (by rw [hst]; decide)]
  exact txRun_drain hst 4

end

/-- Everything an admitted call can do, from any state a call can find the sequencer in between steps (R130). -/
theorem transmit_cases {t code : Byte} {ps : List Byte} {s : State} (ha : txAdmitted t code ps = true)
    (hst : s.txState = .idle ∨ s.txState = .waitCounter ∨ s.txState = .waitSpace ∨ s.txState = .drain)
    (hspace : s.txState = .waitSpace → s.cnt = 0#16) :
    s.cnt ≠ 0#16 ∧ transmit t code ps s = .next { s with txState := .waitCounter } ∨
    s.cnt = 0#16 ∧ transmit t code ps s = .next { s with txState := .waitSpace } ∨
    transmit t code ps s = .fault .rbOverrun ∨
    (s.cnt = 0#16 ∧ ∃ r tx, expectedReply t code ps = some r ∧ s.tx.pushAll (frameBytes t code ps) = some tx ∧
      transmit t code ps s =
        txDrain tx.occupied.toNat { s with tx := tx, cnt := s.cnt + BitVec.ofNat 16 r, txState := .drain }) ∨
    s.txState = .drain ∧ transmit t code ps s = txDrain s.tx.occupied.toNat s := by
  by_cases hdrain : s.txState = .drain
  · exact .inr (.inr (.inr (.inr ⟨hdrain, transmit_resumes ha hdrain⟩)))
  have hst : s.txState = .idle ∨ s.txState = .waitCounter ∨ s.txState = .waitSpace := by simpa [hdrain] using hst
  by_cases hc : s.cnt = 0#16
  · refine .inr ?_
    rcases Nat.lt_or_ge s.tx.free.toNat (ps.length + 6) with hf | hf
    · exact .inl ⟨hc, transmit_space ha hst hc hf⟩
    · obtain ⟨-, -, r, hr⟩ := txAdmitted_iff.mp ha
      cases hp : s.tx.pushAll (frameBytes t code ps) with
      | none => exact .inr (.inl (transmit_overrun ha hst hc hf hp))
      | some tx => exact .inr (.inr (.inl ⟨hc, r, tx, hr, rfl, transmit_drains ha hr hst hc hf hp⟩))
  · rw [← or_assoc] at hst
    exact .inl ⟨hc, transmit_gate ha (hst.resolve_right fun hw => hc (hspace hw)) hc⟩

/-- What a call that ends in a state has done, from any state a call can find the sequencer in between steps (R130). -/
theorem transmit_next {t code : Byte} {ps : List Byte} {s u : State}
    (hst : s.txState = .idle ∨ s.txState = .waitCounter ∨ s.txState = .waitSpace ∨ s.txState = .drain)
    (hspace : s.txState = .waitSpace → s.cnt = 0#16) (h : transmit t code ps s = .next u) :
    s.cnt ≠ 0#16 ∧ u = { s with txState := .waitCounter } ∨
    s.cnt = 0#16 ∧ u = { s with txState := .waitSpace } ∨
    (s.cnt = 0#16 ∧ ∃ r tx, expectedReply t code ps = some r ∧ s.tx.pushAll (frameBytes t code ps) = some tx ∧
      txDrain tx.occupied.toNat { s with tx := tx, cnt := s.cnt + BitVec.ofNat 16 r, txState := .drain } = .next u) ∨
    s.txState = .drain ∧ txDrain s.tx.occupied.toNat s = .next u := by
  have ha : txAdmitted t code ps = true := by
    by_contra hn
    rw [transmit_refused_iff.mpr (Bool.eq_false_iff.mpr hn)] at h
    cases h
  rcases transmit_cases ha hst hspace with
    ⟨hc, hT⟩ | ⟨hc, hT⟩ | hT | ⟨hc, r, tx, hr, hp, hT⟩ | ⟨hdrain, hT⟩ <;> rw [hT] at h
  · cases h; exact .inl ⟨hc, rfl⟩
  · cases h; exact .inr (.inl ⟨hc, rfl⟩)
  · cases h
  · exact .inr (.inr (.inl ⟨hc, r, tx, hr, hp, h⟩))
  · exact .inr (.inr (.inr ⟨hdrain, h⟩))

/-- The drain of bytes just pushed behind `old` on a line that accepts them all: the effect of a completed TRANSMIT (R134,
R146). -/
theorem txDrain_pushed {old f : List Byte} {r : Nat} {s : State} (hidle : s.txState = .idle) (hold : s.tx.Holds old)
    (hroom : old.length + f.length ≤ 255) (haccepts : s.line.Accepts (old.length + f.length)) :
    ∃ u, txDrain (f.foldl RingBuffer.push s.tx).occupied.toNat
        { s with tx := f.foldl RingBuffer.push s.tx, cnt := s.cnt + BitVec.ofNat 16 r, txState := .drain } = .next u ∧
      Sends old f r s u := by
  obtain ⟨-, hholds⟩ := hold.pushAll f hroom
  obtain ⟨hread, hwrite, hcells, hothers⟩ := RingBuffer.foldl_push f s.tx (by omega)
  have hdrain := txDrain_sends (bs := old ++ f)
    (s := { s with tx := f.foldl RingBuffer.push s.tx, cnt := s.cnt + BitVec.ofNat 16 r, txState := .drain })
    hholds (by rw [List.length_append]; exact haccepts)
  rw [hholds.1]
  refine ⟨_, hdrain, ?_, hwrite, ?_, hcells, hothers⟩
  · simp only [hidle, List.length_append, List.append_assoc]
  · have hocc : (f.foldl RingBuffer.push s.tx).occupied = BitVec.ofNat 8 (old ++ f).length := by
      rw [← hholds.1, BitVec.ofNat_toNat, BitVec.setWidth_eq]
    rw [RingBuffer.occupied] at hocc
    simp only [RingBuffer.skipped, ← hocc]
    bv_omega

/-- From a state ready for it an admitted call sends what `tx` holds and then exactly its frame (R134, R146). -/
theorem transmit_sends {t code : Byte} {ps old : List Byte} {r : Nat} {s : State} (ht : t ≠ 0xFF#8) (hlen : ps.length ≤ 249)
    (hr : expectedReply t code ps = some r) (hready : ReadyToSend old ps.length s) :
    ∃ u, transmit t code ps s = .next u ∧ Sends old (frameBytes t code ps) r s u := by
  obtain ⟨hidle, hc, hold, hroom, haccepts⟩ := hready
  have hfree : ps.length + 6 ≤ s.tx.free.toNat := by rw [RingBuffer.free_toNat, hold.1]; omega
  rw [← frameBytes_length t code ps] at hroom haccepts
  obtain ⟨hpush, -⟩ := hold.pushAll (frameBytes t code ps) hroom
  rw [transmit_drains (txAdmitted_iff.mpr ⟨ht, hlen, r, hr⟩) hr (.inl hidle) hc hfree hpush]
  exact txDrain_pushed hidle hold hroom haccepts

end Sys2Proof.Machine

/-! PROOFS. TRANSMIT and the eight wire codes: what each sends and counts, and the waits that hold it (42_transmit.md R131 to
R148). -/

namespace Sys2Proof.Machine

/-! ### The reply size of each code (R133, R136 to R144) -/

theorem expectedReply_broadcast (code : Byte) (ps : List Byte) : expectedReply 0xFE#8 code ps = some 0 := rfl

theorem expectedReply_unicast {t : Byte} (code : Byte) (ps : List Byte) (ht : t ≠ 0xFE#8) :
    expectedReply t code ps = replyBytes code ps := if_neg ht

/-- A code whose unicast reply has a size that its parameters do not move. -/
theorem expectedReply_eq {t code : Byte} {ps : List Byte} {r : Nat} (h : replyBytes code ps = some r) :
    expectedReply t code ps = some (if t = 0xFE#8 then 0 else r) := by
  split_ifs with ht
  · rw [ht, expectedReply_broadcast]
  · rw [expectedReply_unicast code ps ht, h]

theorem replyBytes_ping (ps : List Byte) : replyBytes 0x01#8 ps = some 6 := rfl
theorem replyBytes_readData (first count : Byte) (more : List Byte) :
    replyBytes 0x02#8 (first :: count :: more) = some (6 + count.toNat) := rfl
theorem replyBytes_writeData (ps : List Byte) : replyBytes 0x03#8 ps = some 6 := rfl
theorem replyBytes_regWrite (ps : List Byte) : replyBytes 0x04#8 ps = some (Config.replyBytesOther 0x04#8).val := rfl
theorem replyBytes_action (ps : List Byte) : replyBytes 0x05#8 ps = some (Config.replyBytesOther 0x05#8).val := rfl
theorem replyBytes_reset (ps : List Byte) : replyBytes 0x06#8 ps = some (Config.replyBytesOther 0x06#8).val := rfl
theorem replyBytes_syncWrite (ps : List Byte) : replyBytes 0x83#8 ps = some 0 := rfl
theorem replyBytes_syncRegWrite (ps : List Byte) : replyBytes 0x84#8 ps = some 0 := rfl

/-! ### Completed requests -/

/-- Any sending instruction from a state ready for it sends its packet's frame (R146). -/
theorem exec_request_sends {i : Instr} {t code : Byte} {ps old : List Byte} {r : Nat} {s : State}
    (hi : request i = some (t, code, ps)) (ht : t ≠ 0xFF#8) (hlen : ps.length ≤ 249)
    (hr : expectedReply t code ps = some r) (hready : ReadyToSend old ps.length s) :
    ∃ u, exec i s = .next u ∧ Sends old (frameBytes t code ps) r s u := by
  rw [exec_request hi]
  exact transmit_sends ht hlen hr hready

/-- Settles O27: TRANSMIT is its own request. -/
theorem transmitSendsFrame : Obligations.TransmitSendsFrame := by
  unfold Obligations.TransmitSendsFrame
  intro t code ps old r s ht hlen hr hready
  exact exec_request_sends rfl ht hlen hr hready

/-- Settles O28: PING is the request of code `0x01`, whose reply size is 6. -/
theorem pingResult : Obligations.PingResult := by
  unfold Obligations.PingResult
  intro t ps old s ht hlen hready
  exact exec_request_sends rfl ht hlen (expectedReply_eq (replyBytes_ping ps)) hready

/-- Settles O29: READ_DATA is the request of code `0x02`, whose reply size is 6 plus its second parameter. -/
theorem readDataResult : Obligations.ReadDataResult := by
  unfold Obligations.ReadDataResult
  refine ⟨fun t first count more old s ht hunicast hlen hready => ?_, fun ps old s hlen hready => ?_⟩
  · have hr := (expectedReply_unicast _ _ hunicast).trans (replyBytes_readData first count more)
    exact exec_request_sends rfl ht hlen hr hready
  · exact exec_request_sends rfl (by decide) hlen (expectedReply_broadcast _ _) hready

/-- Settles O30: WRITE_DATA is the request of code `0x03`, whose reply size is 6. -/
theorem writeDataResult : Obligations.WriteDataResult := by
  unfold Obligations.WriteDataResult
  intro t ps old s ht hlen hready
  exact exec_request_sends rfl ht hlen (expectedReply_eq (replyBytes_writeData ps)) hready

/-- Settles O31: the three requests whose reply size is the open parameter of their code. -/
theorem openReplyCodesResult : Obligations.OpenReplyCodesResult := by
  unfold Obligations.OpenReplyCodesResult
  intro t ps old s ht hlen hready
  exact ⟨exec_request_sends rfl ht hlen (expectedReply_eq (replyBytes_regWrite ps)) hready,
    exec_request_sends rfl ht hlen (expectedReply_eq (replyBytes_action ps)) hready,
    exec_request_sends rfl ht hlen (expectedReply_eq (replyBytes_reset ps)) hready⟩

/-- Settles O32: the two requests whose reply size is 0, so that the target makes no difference. -/
theorem syncCodesResult : Obligations.SyncCodesResult := by
  unfold Obligations.SyncCodesResult
  intro t ps old s ht hlen hready
  have hzero {code : Byte} (h : replyBytes code ps = some 0) : expectedReply t code ps = some 0 := by
    rw [expectedReply_eq h, ite_self]
  exact ⟨exec_request_sends rfl ht hlen (hzero (replyBytes_syncWrite ps)) hready,
    exec_request_sends rfl ht hlen (hzero (replyBytes_syncRegWrite ps)) hready⟩

/-! ### Refusals and faults -/

/-- Settles O33: a call is refused exactly outside its domain, of which only a short unicast READ_DATA has no reply size. -/
theorem transmitDomain : Obligations.TransmitDomain := by
  unfold Obligations.TransmitDomain
  intro i t code ps s hi
  rw [exec_request hi, transmit_refused_iff, ← Bool.not_eq_true, txAdmitted_iff, ← Option.isSome_iff_exists,
    expectedReply_isSome, not_and_or, not_and_or, not_not, not_not, not_le]

/-- Settles O24: each broken precondition is its fault; the frame that would fill `tx` whole meets it at its last push. -/
theorem brokenPreconditionsFault : Obligations.BrokenPreconditionsFault := by
  unfold Obligations.BrokenPreconditionsFault
  refine ⟨fun buf x s => ⟨exec_rbPush_full x, exec_rbPop_empty⟩, fun i t code ps s hi ha hidle hc hfull => ?_⟩
  have hframe := frameBytes_length t code ps
  have hne : frameBytes t code ps ≠ [] := List.ne_nil_of_length_pos (by omega)
  rw [exec_request hi]
  exact transmit_overrun ha (.inl hidle) hc (by rw [RingBuffer.free_toNat]; omega)
    (RingBuffer.pushAll_overfull hne (by rw [hframe]; exact hfull))

/-! ### Waits without end -/

/-- A command that stays on the port and leaves the state it reaches as it is, no number of steps moves (R8, log 11). -/
theorem stepMany_held {w : List Byte} {rest : List (List Byte)} {i : Instr} {s u : State} (hc : s.caller = w :: rest)
    (hd : decode w = .ok i) (hs : exec i s = .next u) (hu : exec i u = .next u) (hcaller : u.caller = s.caller)
    (hbusy : u.txState ≠ .idle) (k : Nat) : stepMany (k + 1) s = .next u := by
  have hretire : u.retire = u := if_neg fun h => hbusy h.1
  have hfixed : step u = .next u := by rw [step_command (hcaller.trans hc) hd, hu, andThen_next, hretire]
  rw [stepMany_succ, step_command hc hd, hs, andThen_next, hretire, andThen_next, stepMany_fixed hfixed]

/-- Settles O34: the gate holds the call, and finds the same owed bytes at every further step. -/
theorem gateHoldsForEver : Obligations.GateHoldsForEver := by
  unfold Obligations.GateHoldsForEver
  intro w rest i t code ps s k hc hd hi ha howed hst
  have hs : exec i s = .next { s with txState := .waitCounter } := (exec_request hi s).trans (transmit_gate ha hst howed)
  have hu : exec i { s with txState := .waitCounter } = .next { s with txState := .waitCounter } :=
    (exec_request hi _).trans (transmit_gate ha (.inr rfl) howed)
  exact ⟨hs, stepMany_held hc hd hs hu rfl TxState.noConfusion k⟩

/-- Settles O35: the space wait holds the call, and finds the same `tx` at every further step. -/
theorem spaceWaitHoldsForEver : Obligations.SpaceWaitHoldsForEver := by
  unfold Obligations.SpaceWaitHoldsForEver
  intro w rest i t code ps s k hc hd hi ha hnone hidle hf
  have hs : exec i s = .next { s with txState := .waitSpace } :=
    (exec_request hi s).trans (transmit_space ha (.inl hidle) hnone hf)
  have hu : exec i { s with txState := .waitSpace } = .next { s with txState := .waitSpace } :=
    (exec_request hi _).trans (transmit_space ha (.inr (.inr rfl)) hnone hf)
  exact ⟨hs, stepMany_held hc hd hs hu rfl TxState.noConfusion k⟩

/-- The drain of bytes just pushed behind `old` on a line that takes `j` of them and is then never ready: it is held with the
others in `tx`, and would be held there again (R135). -/
theorem txDrain_pushed_held {old f : List Byte} {j : Nat} {c : BitVec 16} {s : State} (hold : s.tx.Holds old)
    (hroom : old.length + f.length ≤ 255) (hj : j < old.length + f.length) (haccepts : s.line.Accepts j)
    (hnever : s.line.txWaits[j]? = some .never) :
    ∃ u, txDrain (f.foldl RingBuffer.push s.tx).occupied.toNat
        { s with tx := f.foldl RingBuffer.push s.tx, cnt := c, txState := .drain } = .next u ∧
      u.txState = .drain ∧ u.cnt = c ∧ u.line.sent = s.line.sent ++ (old ++ f).take j ∧
      u.tx.Holds ((old ++ f).drop j) ∧ u.caller = s.caller ∧ txDrain u.tx.occupied.toNat u = .next u := by
  obtain ⟨-, hholds⟩ := hold.pushAll f hroom
  rw [← List.length_append] at hj
  have hdrain := txDrain_held (s := { s with tx := f.foldl RingBuffer.push s.tx, cnt := c, txState := .drain })
    hholds hj haccepts hnever
  rw [← hholds.1] at hdrain
  have htaken : ((old ++ f).take j).length = j := List.length_take_of_le hj.le
  have hleft : ((f.foldl RingBuffer.push s.tx).skipped j).Holds ((old ++ f).drop j) := by
    rw [← List.take_append_drop j (old ++ f)] at hholds
    have := hholds.skipped
    rwa [htaken] at this
  have hagain := (txDrain_done_or_fixed hdrain rfl).resolve_left TxState.noConfusion
  exact ⟨_, hdrain, rfl, rfl, rfl, hleft, rfl, hagain⟩

/-- Settles O36: the call comes to its drain, which stops at the byte the line never takes, and stops there again at every further
step. -/
theorem unreadyLineHoldsForEver : Obligations.UnreadyLineHoldsForEver := by
  unfold Obligations.UnreadyLineHoldsForEver
  intro w rest i t code ps old r j s k hc hd hi ht hlen hr hidle hnone hold hroom hj haccepts hnever
  have ha : txAdmitted t code ps = true := txAdmitted_iff.mpr ⟨ht, hlen, r, hr⟩
  have hfree : ps.length + 6 ≤ s.tx.free.toNat := by rw [RingBuffer.free_toNat, hold.1]; omega
  rw [← frameBytes_length t code ps] at hroom hj
  obtain ⟨hpush, -⟩ := hold.pushAll (frameBytes t code ps) hroom
  obtain ⟨u, hdrain, hst, hcnt, hsent, hholds, hcaller, hagain⟩ :=
    txDrain_pushed_held (c := s.cnt + BitVec.ofNat 16 r) hold hroom hj haccepts hnever
  have hs : exec i s = .next u :=
    (exec_request hi s).trans ((transmit_drains ha hr (.inl hidle) hnone hfree hpush).trans hdrain)
  have hu : exec i u = .next u := (exec_request hi u).trans ((transmit_resumes ha hst).trans hagain)
  exact ⟨u, hs, hst, by rw [hcnt, hnone, BitVec.zero_add], hsent, hholds,
    stepMany_held hc hd hs hu hcaller (by rw [hst]; decide) k⟩

/-! ### From an idle sequencer -/

/-- A call from an idle sequencer leaves the counter alone, or raises it from zero by its reply size (R131, R133). -/
theorem transmit_cnt {t code : Byte} {ps : List Byte} {s u : State} (hidle : s.txState = .idle)
    (h : transmit t code ps s = .next u) :
    u.txState ≠ .idle ∧ u.tx = s.tx ∧ u.line = s.line ∧ u.cnt = s.cnt ∨
      s.cnt = 0#16 ∧ ∃ r, expectedReply t code ps = some r ∧ u.cnt = BitVec.ofNat 16 r := by
  rcases transmit_next (.inl hidle) (by rw [hidle]; exact TxState.noConfusion) h with
    ⟨-, rfl⟩ | ⟨-, rfl⟩ | ⟨hc, r, tx, hr, -, hdrain⟩ | ⟨hdrain, -⟩
  · exact .inl ⟨TxState.noConfusion, rfl, rfl, rfl⟩
  · exact .inl ⟨TxState.noConfusion, rfl, rfl, rfl⟩
  · obtain ⟨j, bs, -, -, hu⟩ := txDrain_next hdrain
    exact .inr ⟨hc, r, hr, by rw [hu, hc, BitVec.zero_add]⟩
  · rw [hidle] at hdrain; cases hdrain

/-- Every reply size fits the counter (R25). -/
theorem expectedReply_toNat {t code : Byte} {ps : List Byte} {r : Nat} (h : expectedReply t code ps = some r) :
    (BitVec.ofNat 16 r).toNat = r := by
  have := expectedReply_le h
  rw [Config.maxCounter] at this
  rw [BitVec.toNat_ofNat, Nat.mod_eq_of_lt (by omega)]

theorem exists_request {i : Instr} (h : isTransmit i = true) : ∃ t code ps, request i = some (t, code, ps) := by
  obtain ⟨⟨t, code, ps⟩, hi⟩ := Option.isSome_iff_exists.mp h
  exact ⟨t, code, ps, hi⟩

/-- Settles O37: the first call has left its reply size in the counter, which is not 0, and the gate holds the second. -/
theorem secondTransmitHangs : Obligations.SecondTransmitHangs := by
  unfold Obligations.SecondTransmitHangs
  intro i₁ i₂ t₁ c₁ t₂ c₂ ps₁ ps₂ r s u hi₁ hi₂ hidle hunicast hr hpos h₁ hdone ha
  rw [exec_request hi₁] at h₁
  rw [exec_request hi₂]
  refine transmit_gate ha (.inl hdone) fun hzero => ?_
  rcases transmit_cnt hidle h₁ with ⟨hbusy, -⟩ | ⟨-, r', hr', hcnt⟩
  · exact hbusy hdone
  · have hsize := expectedReply_toNat hr'
    rw [expectedReply_unicast _ _ hunicast, hr, Option.some.injEq] at hr'
    rw [← hcnt, hzero, BitVec.toNat_ofNat, Nat.zero_mod] at hsize
    omega

/-- Settles O39: of the ways a call can end, only the one that found the counter zero sends, counts or touches `tx`. -/
theorem requestsWaitForReplies : Obligations.RequestsWaitForReplies := by
  unfold Obligations.RequestsWaitForReplies
  intro i s u hi hidle h hchanged
  obtain ⟨t, code, ps, hi⟩ := exists_request hi
  rw [exec_request hi] at h
  rcases transmit_cnt hidle h with ⟨-, htx, hline, hcnt⟩ | ⟨hzero, -⟩
  · simp [htx, hline, hcnt] at hchanged
  · exact hzero

/-! ### What a request leaves alone (R148) -/

/-- `u` differs from `s` at most on TRANSMIT's side, and the record of what was sent has only grown. -/
def OnlyTransmitterMoved (s u : State) : Prop :=
  u = { s with
        tx := u.tx, cnt := u.cnt, txState := u.txState, answer := u.answer
        line := { s.line with txWaits := u.line.txWaits, sent := u.line.sent } } ∧
  s.line.sent <+: u.line.sent

theorem OnlyTransmitterMoved.trans {s u v : State} (h : OnlyTransmitterMoved s u) (h' : OnlyTransmitterMoved u v) :
    OnlyTransmitterMoved s v := by
  obtain ⟨hu, hsent⟩ := h
  obtain ⟨hv, hsent'⟩ := h'
  exact ⟨hv.trans (by rw [hu]), hsent.trans hsent'⟩

/-- A call moves nothing outside TRANSMIT's side, from any state (R148). -/
theorem transmit_frame {t code : Byte} {ps : List Byte} {s u : State} (h : transmit t code ps s = .next u) :
    OnlyTransmitterMoved s u := by
  unfold transmit at h
  split at h
  · refine txRun_keeps (P := OnlyTransmitterMoved s) (fun v w hv hw => hv.trans (txTick_next hw)) ?_ h
    split <;> exact ⟨rfl, List.prefix_refl _⟩
  · cases h

/-- Settles O38: every tick of the sequencer moves only TRANSMIT's side, and so does a run of them. -/
theorem transmitLeavesReceiver : Obligations.TransmitLeavesReceiver := by
  unfold Obligations.TransmitLeavesReceiver
  intro i s u hi h
  obtain ⟨t, code, ps, hi⟩ := exists_request hi
  rw [exec_request hi] at h
  exact transmit_frame h

end Sys2Proof.Machine

/-! PROOFS. RECEIVE with what the line and `rx` hold given: the collector and each check of the parser (43_receive.md R160 to
R174, R177; 60_exceptions.md R221). -/

namespace Sys2Proof.Machine

theorem exec_receive (e : Byte) (m : Nat) (s : State) : exec (.receive e m) s = receive e m s := rfl

/-- Outside its domain RECEIVE is refused, inside it never (R160). -/
theorem receive_refused_iff {e : Byte} {m : Nat} {s : State} : receive e m s = .refused .rxDomain ↔ 249 < m := by
  rcases Nat.lt_or_ge 249 m with hm | hm
  · exact iff_of_true (if_neg (by rw [Config.maxParamsRx]; omega)) hm
  · rw [receive_eq hm]
    exact iff_of_false rxRun_refused (by omega)

/-- Settles O54: RECEIVE inside its domain is a run of the sequencer, which refuses nothing. -/
theorem receiveDomain : Obligations.ReceiveDomain := by
  unfold Obligations.ReceiveDomain
  exact fun e m s => receive_refused_iff

/-! ### The collector (R161 to R164, R174) -/

/-- A state of the sequencer that RECEIVE returns from ends the run. -/
theorem rxRun_returns {k : Nat} {u v : State} (h : rxTick u = .next v) (hidle : v.rxState = .idle) :
    rxRun (k + 1) u = .next v := by
  rw [rxRun_succ h, rxRun_idle hidle]

/-- A RECEIVE that the collector returns from. -/
theorem receive_returned {e : Byte} {m : Nat} {s u : State} (hm : m ≤ 249) (h : rxCollect s.cnt.toNat (s.rxStart e m) = .next u)
    (hidle : u.rxState = .idle) : receive e m s = .next u := by
  have htick : rxTick (s.rxStart e m) = .next u := h
  rw [receive_eq hm, rxRun_returns htick hidle]

theorem State.rxStart_collected (s : State) (e : Byte) (m : Nat) (as more : List Arrival) :
    (s.rxStart e m).collected as more = (s.collected as more).rxStart e m := rfl

/-- What `rx` holds once bytes that fit have been collected (R164). -/
theorem State.collected_holds {s : State} {old : List Byte} {as : List Arrival} (more : List Arrival) (h : s.rx.Holds old)
    (hfit : s.rx.occupied.toNat + as.length ≤ 255) : (s.collected as more).rx.Holds (old ++ as.map Arrival.byte) :=
  (h.pushAll (as.map Arrival.byte) (by rw [← h.1, List.length_map]; exact hfit)).2

theorem State.collected_cnt {s : State} {as : List Arrival} (more : List Arrival) (h : s.cnt.toNat = as.length) :
    (s.collected as more).cnt = 0#16 := by
  change s.cnt - BitVec.ofNat 16 as.length = 0#16
  rw [← h, BitVec.ofNat_toNat, BitVec.setWidth_eq, BitVec.sub_self]

/-- RECEIVE with every owed byte delivered in time goes on as from the state that holds them (R161, R164). -/
theorem receive_collected {e : Byte} {m : Nat} {as more : List Arrival} {s : State} (hcnt : s.cnt.toNat = as.length)
    (hline : s.line.Delivers as more) (hfit : s.rx.occupied.toNat + as.length ≤ 255) :
    receive e m s = receive e m (s.collected as more) := by
  rcases Nat.lt_or_ge 249 m with hm | hm
  · rw [receive_refused_iff.mpr hm, receive_refused_iff.mpr hm]
  · have hdone := rxTick_collect_none (u := (s.collected as more).rxStart e m) rfl (State.collected_cnt more hcnt)
    have hcollect : rxTick (s.rxStart e m) = rxCollect (as.length + 0) (s.rxStart e m) := by rw [Nat.add_zero, ← hcnt]; rfl
    rw [rxCollect_delivered (s := s.rxStart e m) hline hfit, State.rxStart_collected] at hcollect
    rw [receive_eq hm, receive_eq hm, rxRun_succ hdone, rxRun_succ (hcollect.trans rfl)]

/-- Settles O40: the collector's work on the delivered bytes is the state `collected`, from which nothing is owed. -/
theorem collectThenParse : Obligations.CollectThenParse := by
  unfold Obligations.CollectThenParse
  intro e m as more s hcnt hline hfit
  exact ⟨receive_collected hcnt hline hfit, State.collected_cnt more hcnt,
    fun old hold => State.collected_holds more hold hfit⟩

/-- A line silent through one wait, with bytes owed, is the `Timeout` return (R162, R163). -/
theorem rxCollect_silent {n : Nat} {s : State} (h : Silent s.line.incoming) :
    rxCollect (n + 1) s = .next (State.rxErrorReturn { s with
      line := { s.line with incoming := afterPolls Config.timeoutIterations s.line.incoming }
      rxTimeout := 0#32, cnt := 0#16 } .timeout 0x00#8) := by
  rw [rxCollect, awaitByte_error h]

/-- RECEIVE with fewer bytes delivered than are owed, and then silence (R163). -/
theorem receive_timeout {e : Byte} {m : Nat} {as more : List Arrival} {s : State} (hm : m ≤ 249)
    (howed : as.length < s.cnt.toNat) (hline : s.line.Delivers as more) (hsilent : Silent more)
    (hfit : s.rx.occupied.toNat + as.length ≤ 255) :
    receive e m s = .next { s with
      rx := { s.rxWith as with readPos := 0#8, writePos := 0#8 }
      cnt := 0#16, rxTimeout := 0#32, rxState := .idle, rxExpectedId := e, rxParamLen := m
      line := { s.line with incoming := afterPolls Config.timeoutIterations more }
      outcome := .timeout, errorByte := 0x00#8, parametersOut := [], answer := .received } := by
  obtain ⟨n, hn⟩ := Nat.exists_eq_add_of_lt howed
  rw [Nat.add_assoc] at hn
  refine receive_returned hm ?_ rfl
  rw [hn, rxCollect_delivered (s := s.rxStart e m) hline hfit, rxCollect_silent (s := (s.rxStart e m).collected as more) hsilent]
  rfl

/-- Settles O41: the collector takes what is delivered and then spends every poll of one wait. -/
theorem silenceTimesOut : Obligations.SilenceTimesOut := by
  unfold Obligations.SilenceTimesOut
  intro e m as more s hm howed hline hsilent hfit
  exact receive_timeout hm howed hline hsilent hfit

/-- A byte that comes while `rx` accounts for 255 is the fault (R174). -/
theorem rxCollect_overrun {n : Nat} {a : Arrival} {more : List Arrival} {s : State} (hline : s.line.incoming = a :: more)
    (hintime : a.silentPolls < Config.timeoutIterations) (hfull : s.rx.occupied.toNat = 255) :
    rxCollect (n + 1) s = .fault .rxOverrun := by
  simp only [rxCollect, awaitByte_ok hline hintime, RingBuffer.pushChecked_full a.byte hfull]

/-- Settles O42: all but the last of the bytes fit, and the last comes to a full buffer. -/
theorem fullReceiverOverruns : Obligations.FullReceiverOverruns := by
  unfold Obligations.FullReceiverOverruns
  intro e m as more s hm howed hline hfull
  have hlt := s.rx.occupied.isLt
  obtain ⟨as, a, rfl⟩ := (List.eq_nil_or_concat' as).resolve_left (by rintro rfl; simp at hfull; omega)
  obtain ⟨hincoming, hintime⟩ := hline
  rw [List.length_append, List.length_singleton] at howed hfull
  obtain ⟨n, hn⟩ := Nat.exists_eq_add_of_le howed
  rw [List.append_assoc] at hincoming
  have hfirst : s.line.Delivers as (a :: more) := ⟨hincoming, fun b hb => hintime b (List.mem_append_left _ hb)⟩
  have hbytes : (s.rxWith as).occupied.toNat = 255 := by
    rw [RingBuffer.foldl_push_occupied, BitVec.toNat_add, BitVec.toNat_ofNat, List.length_map]
    omega
  rw [exec_receive, receive_eq hm]
  refine rxRun_fault ?_
  change rxCollect s.cnt.toNat (s.rxStart e m) = _
  rw [hn, Nat.add_assoc, Nat.add_comm 1 n, rxCollect_delivered (s := s.rxStart e m) hfirst (by rw [State.rxStart_rx]; omega)]
  exact rxCollect_overrun (s := (s.rxStart e m).collected as (a :: more)) rfl
    (hintime a (List.mem_append_right _ (List.mem_singleton_self a))) hbytes

/-! ### The scan (R165, R166, R177) -/

/-- RECEIVE with nothing owed and no marker in `rx` (R166). -/
theorem receive_headerError {e : Byte} {m : Nat} {bs : List Byte} {s : State} (hm : m ≤ 249) (hcnt : s.cnt = 0#16)
    (hbs : s.rx.Holds bs) (hno : NoMarker bs) :
    receive e m s = .next { s with
      rx := s.rx.skipped (if bs.getLast? = some 0xFF#8 then bs.length - 1 else bs.length)
      rxState := .idle, rxExpectedId := e, rxParamLen := m
      outcome := .headerError, errorByte := 0x00#8, parametersOut := [], answer := .received } := by
  have hsync := rxTick_sync_none (u := { s.rxStart e m with rxState := .sync }) rfl hbs hno
  rw [receive_eq hm, rxRun_succ (rxTick_collect_none (u := s.rxStart e m) rfl hcnt), rxRun_returns hsync rfl]
  rfl

/-- Settles O43: the scan runs out. -/
theorem noMarkerIsHeaderError : Obligations.NoMarkerIsHeaderError := by
  unfold Obligations.NoMarkerIsHeaderError
  intro e m bs s hm hcnt hbs hno
  exact receive_headerError hm hcnt hbs hno

/-- Settles O55: an empty `rx` holds no marker, and the scan passes no byte of it. -/
theorem nothingOwedNothingRead : Obligations.NothingOwedNothingRead := by
  unfold Obligations.NothingOwedNothingRead
  intro e m s hm hcnt hempty
  have hno : NoMarker [] := fun k h => nomatch h.1
  rw [exec_receive, receive_headerError hm hcnt (RingBuffer.holds_nil hempty) hno]
  simp only [List.getLast?_nil, reduceCtorEq, if_false, List.length_nil, RingBuffer.skipped_zero]

/-! ### The checks behind a marker (R167 to R172) -/

/-- RECEIVE with another id behind the marker (R167). -/
theorem receive_idError {e id : Byte} {m : Nat} {junk more : List Byte} {s : State} (hm : m ≤ 249)
    (h : s.AtMarker junk (id :: more)) (hid : id ≠ e) :
    receive e m s = .next { s with
      rx := { s.rx with readPos := 0#8, writePos := 0#8 }
      rxState := .idle, rxExpectedId := e, rxParamLen := m, rxId := id, rxSum := id
      outcome := .idError, errorByte := 0x00#8, parametersOut := [], answer := .received } := by
  obtain ⟨hrun, hholds⟩ := receive_marker (e := e) hm h
  refine hrun.trans (rxRun_returns ?_ rfl)
  exact rxTick_id_bad rfl hholds hid

/-- Settles O44: the check of the id comes before any other byte is looked at. -/
theorem wrongIdIsIdError : Obligations.WrongIdIsIdError := by
  unfold Obligations.WrongIdIsIdError
  intro e id m junk more s hm h hid
  exact receive_idError hm h hid

/-- RECEIVE with another length behind marker and id (R168). -/
theorem receive_lengthError {e length : Byte} {m : Nat} {junk more : List Byte} {s : State} (hm : m ≤ 249)
    (h : s.AtMarker junk (e :: length :: more)) (hlen : length.toNat ≠ 2 + m) :
    receive e m s = .next { s with
      rx := { s.rx with readPos := 0#8, writePos := 0#8 }
      rxState := .idle, rxExpectedId := e, rxParamLen := m, rxId := e, rxLen := length, rxSum := e + length
      outcome := .lengthError, errorByte := 0x00#8, parametersOut := [], answer := .received } := by
  obtain ⟨hrun, hholds⟩ := receive_id hm h
  refine hrun.trans (rxRun_returns ?_ rfl)
  exact rxTick_length_bad rfl hholds hlen

/-- Settles O45: behind the expected id the check of the length decides. -/
theorem wrongLengthIsLengthError : Obligations.WrongLengthIsLengthError := by
  unfold Obligations.WrongLengthIsLengthError
  intro e length m junk more s hm h hlen
  exact receive_lengthError hm h hlen

/-- RECEIVE with a non-zero status byte behind marker, id and length (R169). -/
theorem receive_generalError {e error : Byte} {m : Nat} {junk more : List Byte} {s : State} (hm : m ≤ 249)
    (h : s.AtMarker junk (e :: BitVec.ofNat 8 (m + 2) :: error :: more)) (herr : error ≠ 0x00#8) :
    receive e m s = .next { s with
      rx := { s.rx with readPos := 0#8, writePos := 0#8 }
      rxState := .idle, rxExpectedId := e, rxParamLen := m, rxId := e
      rxLen := BitVec.ofNat 8 (m + 2), rxErr := error, rxSum := e + BitVec.ofNat 8 (m + 2) + error
      outcome := .generalError, errorByte := error, parametersOut := [], answer := .received } := by
  obtain ⟨hrun, hholds⟩ := receive_length hm h
  refine hrun.trans (rxRun_returns ?_ rfl)
  exact rxTick_error_bad rfl hholds herr

/-- Settles O46: behind the expected id and length the check of the status byte decides. -/
theorem deviceErrorIsGeneralError : Obligations.DeviceErrorIsGeneralError := by
  unfold Obligations.DeviceErrorIsGeneralError
  intro e error m junk more s hm h herr
  exact receive_generalError hm h herr

/-- RECEIVE with a frame in `rx` whose last byte is not its checksum (R171). -/
theorem receive_checksumError {e c : Byte} {ps junk more : List Byte} {s : State} (hm : ps.length ≤ 249)
    (h : s.AtMarker junk (e :: BitVec.ofNat 8 (ps.length + 2) :: 0x00#8 :: (ps ++ c :: more)))
    (hc : c ≠ checksumByte e (BitVec.ofNat 8 (ps.length + 2)) 0x00#8 ps) :
    receive e ps.length s = .next { s with
      rx := { s.rx with readPos := 0#8, writePos := 0#8 }
      rxState := .idle, rxExpectedId := e, rxParamLen := ps.length, rxId := e
      rxLen := BitVec.ofNat 8 (ps.length + 2), rxErr := 0x00#8, rxIndex := ps.length, rxPayload := ps
      rxSum := ~~~ checksumByte e (BitVec.ofNat 8 (ps.length + 2)) 0x00#8 ps
      outcome := .checksumError, errorByte := 0x00#8, parametersOut := [], answer := .received } := by
  obtain ⟨hrun, hholds⟩ := receive_payload hm h
  refine hrun.trans (rxRun_returns ?_ rfl)
  exact rxTick_checksum_bad rfl hholds (by simpa only [BitVec.not_not] using hc)

/-- Settles O47: behind a good header and the payload the running sum is the complement of the checksum. -/
theorem wrongChecksumIsChecksumError : Obligations.WrongChecksumIsChecksumError := by
  unfold Obligations.WrongChecksumIsChecksumError
  intro e c ps junk more s hm h hc
  exact receive_checksumError hm h hc

/-- RECEIVE with a good frame in `rx` (R172). -/
theorem receive_noError {e : Byte} {ps junk more : List Byte} {s : State} (hm : ps.length ≤ 249)
    (h : s.AtMarker junk (e :: BitVec.ofNat 8 (ps.length + 2) :: 0x00#8 ::
      (ps ++ checksumByte e (BitVec.ofNat 8 (ps.length + 2)) 0x00#8 ps :: more))) :
    receive e ps.length s = .next { s with
      rx := s.rx.skipped (junk.length + ps.length + 6)
      rxState := .idle, rxExpectedId := e, rxParamLen := ps.length, rxId := e
      rxLen := BitVec.ofNat 8 (ps.length + 2), rxErr := 0x00#8, rxIndex := ps.length, rxPayload := ps
      rxSum := ~~~ checksumByte e (BitVec.ofNat 8 (ps.length + 2)) 0x00#8 ps
      outcome := .noError, errorByte := 0x00#8, parametersOut := ps, answer := .received } := by
  obtain ⟨hrun, hholds⟩ := receive_payload hm h
  have hhead : (s.rx.skipped (junk.length + 5 + ps.length)).skip = s.rx.skipped (junk.length + ps.length + 6) := by
    rw [RingBuffer.skipped_skip, show junk.length + 5 + ps.length + 1 = junk.length + ps.length + 6 by omega]
  refine hrun.trans (rxRun_returns ?_ rfl)
  exact rxTick_checksum_ok rfl hholds BitVec.not_not.symm hhead

/-- Settles O48: every check passes, and the head has moved past each byte checked. -/
theorem goodFrameIsNoError : Obligations.GoodFrameIsNoError := by
  unfold Obligations.GoodFrameIsNoError
  intro e ps junk more s hm h
  exact receive_noError hm h

/-- Settles O49: as far as its bytes go the parser's checks pass, and the next state finds `rx` empty. -/
theorem shortFrameUnderruns : Obligations.ShortFrameUnderruns := by
  unfold Obligations.ShortFrameUnderruns
  intro e m ps junk s hm
  refine ⟨fun h => ?id, fun h => ?length, fun h => ?error, fun h hlt => ?payload, fun h heq => ?checksum⟩
  case id =>
    obtain ⟨hrun, hholds⟩ := receive_marker (e := e) hm h
    exact hrun.trans (rxRun_fault (rxTick_underrun hholds (.inl rfl)))
  case length =>
    obtain ⟨hrun, hholds⟩ := receive_id hm h
    exact hrun.trans (rxRun_fault (rxTick_underrun hholds (.inr (.inl rfl))))
  case error =>
    obtain ⟨hrun, hholds⟩ := receive_length hm h
    exact hrun.trans (rxRun_fault (rxTick_underrun hholds (.inr (.inr (.inl rfl)))))
  case payload =>
    obtain ⟨hrun, hholds⟩ := receive_error hm h
    exact hrun.trans (rxRun_fault (rxReadPayload_short hholds hlt rfl))
  case checksum =>
    subst heq
    rw [← List.append_nil ps] at h
    obtain ⟨hrun, hholds⟩ := receive_payload (ps := ps) (body := []) hm (by simpa using h)
    exact hrun.trans (rxRun_fault (rxTick_underrun hholds (.inr (.inr (.inr rfl)))))

/-! ### Compositions -/

/-- A frame as the whole content of `rx`, with nothing owed: its marker, then the rest. -/
theorem State.atMarker_frame {s : State} {id e : Byte} {ps : List Byte} (hcnt : s.cnt = 0#16)
    (h : s.rx.Holds (frameBytes id e ps)) :
    s.AtMarker [] (id :: BitVec.ofNat 8 (ps.length + 2) :: e ::
      (ps ++ [checksumByte id (BitVec.ofNat 8 (ps.length + 2)) e ps])) := by
  refine ⟨hcnt, h, fun k hk => ?_⟩
  cases hk.2

/-- Settles O56: the framed bytes are a marker and what the parser's checks ask for, up to a non-zero error byte. -/
theorem frameThenParseRecovers : Obligations.FrameThenParseRecovers := by
  unfold Obligations.FrameThenParseRecovers
  intro id e p bytes s f hlen hframe hanswer hholds hcnt
  rw [exec_frame id e s (by omega)] at hframe
  cases hframe
  cases hanswer
  have hmarker := State.atMarker_frame hcnt hholds
  split_ifs with he
  · subst he
    exact ⟨_, receive_noError hlen hmarker, rfl, rfl, rfl⟩
  · exact ⟨_, receive_generalError hlen hmarker he, rfl, rfl, rfl⟩

/-- Settles O52: each outcome is that of the first check that fails, by the result for that check. -/
theorem orderOfDetection : Obligations.OrderOfDetection := by
  unfold Obligations.OrderOfDetection
  intro e m s hm
  refine ⟨fun as more howed hline hsilent hfit => ⟨_, receive_timeout hm howed hline hsilent hfit, rfl⟩,
    fun bs hcnt hbs hno => ⟨_, receive_headerError hm hcnt hbs hno, rfl⟩, ?_⟩
  intro id length error c ps junk more hps h
  subst hps
  obtain hid | rfl := ne_or_eq id e
  · exact ⟨_, receive_idError hm h hid, (if_pos hid).symm⟩
  rw [if_neg (not_not.mpr rfl)]
  by_cases hlen : length.toNat ≠ 2 + ps.length
  · exact ⟨_, receive_lengthError hm h hlen, (if_pos hlen).symm⟩
  rw [if_neg hlen]
  obtain rfl : length = BitVec.ofNat 8 (ps.length + 2) := by
    rw [Nat.add_comm, ← not_not.mp hlen, BitVec.ofNat_toNat, BitVec.setWidth_eq]
  obtain herr | rfl := ne_or_eq error 0x00#8
  · exact ⟨_, receive_generalError hm h herr, (if_pos herr).symm⟩
  rw [if_neg (not_not.mpr rfl)]
  obtain hc | rfl := ne_or_eq c (checksumByte id (BitVec.ofNat 8 (ps.length + 2)) 0x00#8 ps)
  · exact ⟨_, receive_checksumError hm h hc, (if_pos hc).symm⟩
  · exact ⟨_, receive_noError hm h, (if_neg (not_not.mpr rfl)).symm⟩

end Sys2Proof.Machine

/-! PROOFS. What every RECEIVE that returns has done, from any state (43_receive.md R160 and section 4; 60_exceptions.md
R222). -/

namespace Sys2Proof.Machine

/-! ### What is left alone (R160) -/

/-- `u` differs from `s` at most on RECEIVE's side, RECEIVE's two arguments excepted. -/
def OnlyReceiverMoved (s u : State) : Prop :=
  u = { s with
        rx := u.rx, cnt := u.cnt, rxTimeout := u.rxTimeout, rxState := u.rxState
        rxId := u.rxId, rxLen := u.rxLen, rxErr := u.rxErr, rxSum := u.rxSum, rxIndex := u.rxIndex, rxPayload := u.rxPayload
        outcome := u.outcome, errorByte := u.errorByte, parametersOut := u.parametersOut, answer := u.answer
        line := { s.line with incoming := u.line.incoming } }

theorem OnlyReceiverMoved.refl (s : State) : OnlyReceiverMoved s s := rfl

theorem OnlyReceiverMoved.trans {s u v : State} (hu : OnlyReceiverMoved s u) (hv : OnlyReceiverMoved u v) :
    OnlyReceiverMoved s v :=
  Eq.trans hv (by rw [hu])

/-- One state of the sequencer moves only RECEIVE's side (R176). -/
theorem rxTick_frame {u v : State} (h : rxTick u = .next v) : OnlyReceiverMoved u v := by
  rcases rxTick_next h with ⟨-, rfl⟩ | ⟨-, h⟩ | ⟨-, h⟩ | ⟨-, h⟩ | ⟨b, -, -, h⟩
  · rfl
  · obtain ⟨-, hv, -⟩ := rxCollect_next h
    rw [hv]; rfl
  · obtain ⟨j, -, ⟨-, -, -, rfl⟩ | ⟨rfl, -⟩⟩ := rxScan_next h rfl <;> rfl
  · obtain ⟨-, hv, -⟩ := rxReadPayload_next h
    rw [hv]; rfl
  · rcases h with ⟨-, h⟩ | ⟨-, h⟩ | ⟨-, h⟩ | ⟨-, h⟩ <;> obtain ⟨-, rfl⟩ | ⟨-, rfl⟩ := h <;> rfl

/-- A RECEIVE that ends in a state was called within its domain. -/
theorem receive_domain {e : Byte} {m : Nat} {s t : State} (h : receive e m s = .next t) : m ≤ 249 := by
  by_contra hm
  rw [receive_refused_iff.mpr (Nat.lt_of_not_le hm)] at h
  cases h

/-- A RECEIVE moves only RECEIVE's side from the latching of its arguments on, from any state (R160). -/
theorem receive_frame {e : Byte} {m : Nat} {s t : State} (h : receive e m s = .next t) :
    OnlyReceiverMoved (s.rxStart e m) t := by
  have hrun := h
  rw [receive_eq (receive_domain h)] at hrun
  exact rxRun_keeps (P := OnlyReceiverMoved (s.rxStart e m)) (fun u v hu hv => hu.trans (rxTick_frame hv)) (.refl _) hrun

/-- The other side of the block, and the caller, are as they were. -/
theorem receive_keeps {e : Byte} {m : Nat} {s t : State} (h : receive e m s = .next t) :
    t.tx = s.tx ∧ t.txState = s.txState ∧ t.caller = s.caller := by
  have hframe : OnlyReceiverMoved (s.rxStart e m) t := receive_frame h
  rw [hframe]
  exact ⟨rfl, rfl, rfl⟩

/-- Settles O53: the frame of a run of the sequencer's states, behind the latching of the two arguments. -/
theorem receiveLeavesTransmitter : Obligations.ReceiveLeavesTransmitter := by
  unfold Obligations.ReceiveLeavesTransmitter
  intro e m s t h
  exact receive_frame h

/-! ### The bytes a moved head has passed -/

/-- `n` bytes into what `b` holds, the last ones passed are `bs`. -/
def RingBuffer.Passed (b : RingBuffer) (n : Nat) (bs : List Byte) : Prop :=
  bs.length ≤ n ∧ n ≤ b.occupied.toNat ∧ ∀ j, j < bs.length → b.peek (n - bs.length + j) = bs[j]?

/-- Passing over the next bytes. -/
theorem RingBuffer.Passed.append {b : RingBuffer} {n : Nat} {bs cs : List Byte} (h : b.Passed n bs)
    (hfit : cs.length ≤ (b.skipped n).occupied.toNat) (hcs : ∀ j, j < cs.length → (b.skipped n).peek j = cs[j]?) :
    b.Passed (n + cs.length) (bs ++ cs) := by
  obtain ⟨hlen, hn, hbs⟩ := h
  rw [RingBuffer.skipped_occupied_toNat hn] at hfit
  refine ⟨by rw [List.length_append]; omega, by omega, fun j hj => ?_⟩
  rw [List.length_append] at hj ⊢
  rw [Nat.add_sub_add_right]
  rcases Nat.lt_or_ge j bs.length with hlt | hge
  · rw [hbs j hlt, List.getElem?_append_left hlt]
  · rw [List.getElem?_append_right hge, ← hcs _ (by omega), RingBuffer.peek_skipped]
    congr 1
    omega

/-! ### One state of the parser, from any state of the machine (R167 to R171) -/

section
variable {u v : State}

theorem rxTick_sync_next (hst : u.rxState = .sync) (h : rxTick u = .next v) : rxScan u.rx.occupied.toNat u = .next v := by
  simpa [hst] using rxTick_next h

theorem rxTick_id_next (hst : u.rxState = .id) (h : rxTick u = .next v) :
    ∃ b, u.rx.occupied.toNat ≠ 0 ∧ u.rx.peek 0 = some b ∧
      (b ≠ u.rxExpectedId ∧ v = State.rxErrorReturn { u with rx := u.rx.skip, rxId := b, rxSum := b } .idError 0x00#8 ∨
        b = u.rxExpectedId ∧ v = { u with rx := u.rx.skip, rxId := b, rxSum := b, rxState := .length }) := by
  simpa [hst] using rxTick_next h

theorem rxTick_length_next (hst : u.rxState = .length) (h : rxTick u = .next v) :
    ∃ b, u.rx.occupied.toNat ≠ 0 ∧ u.rx.peek 0 = some b ∧
      (b.toNat ≠ 2 + u.rxParamLen ∧
          v = State.rxErrorReturn { u with rx := u.rx.skip, rxLen := b, rxSum := u.rxSum + b } .lengthError 0x00#8 ∨
        b.toNat = 2 + u.rxParamLen ∧ v = { u with rx := u.rx.skip, rxLen := b, rxSum := u.rxSum + b, rxState := .error }) := by
  simpa [hst] using rxTick_next h

theorem rxTick_error_next (hst : u.rxState = .error) (h : rxTick u = .next v) :
    ∃ b, u.rx.occupied.toNat ≠ 0 ∧ u.rx.peek 0 = some b ∧
      (b ≠ 0x00#8 ∧ v = State.rxErrorReturn { u with rx := u.rx.skip, rxErr := b, rxSum := u.rxSum + b } .generalError b ∨
        b = 0x00#8 ∧ v = { u with
          rx := u.rx.skip, rxErr := b, rxSum := u.rxSum + b, rxState := .payload, rxIndex := 0, rxPayload := [] }) := by
  simpa [hst] using rxTick_next h

theorem rxTick_payload_next (hst : u.rxState = .payload) (h : rxTick u = .next v) :
    rxReadPayload (u.rxParamLen - u.rxIndex) u = .next v := by
  simpa [hst] using rxTick_next h

theorem rxTick_checksum_next (hst : u.rxState = .checksum) (h : rxTick u = .next v) :
    ∃ b, u.rx.occupied.toNat ≠ 0 ∧ u.rx.peek 0 = some b ∧
      (b ≠ ~~~u.rxSum ∧ v = State.rxErrorReturn { u with rx := u.rx.skip } .checksumError 0x00#8 ∨
        b = ~~~u.rxSum ∧ v = State.rxReturn { u with rx := u.rx.skip } .noError 0x00#8 u.rxPayload) := by
  simpa [hst] using rxTick_next h

end

/-! ### The parser, behind the collector -/

/-- The parser of a RECEIVE for `e` and `m` stands in `u`: from the collector's end `c` on it has moved the head of `rx`, the last
bytes it has passed are `bs`, and it has not touched the counter. -/
structure Parsing (e : Byte) (m : Nat) (c : State) (bs : List Byte) (u : State) : Prop where
  passed : ∃ n, u.rx = c.rx.skipped n ∧ c.rx.Passed n bs
  expectedId : u.rxExpectedId = e
  paramLen : u.rxParamLen = m
  cnt : u.cnt = c.cnt

/-- The parser has passed over one more byte. -/
theorem Parsing.snoc {e b : Byte} {m : Nat} {c u v : State} {bs : List Byte} (h : Parsing e m c bs u)
    (ho : u.rx.occupied.toNat ≠ 0) (hb : u.rx.peek 0 = some b) (hrx : v.rx = u.rx.skip)
    (hid : v.rxExpectedId = u.rxExpectedId) (hlen : v.rxParamLen = u.rxParamLen) (hcnt : v.cnt = u.cnt) :
    Parsing e m c (bs ++ [b]) v := by
  obtain ⟨⟨n, hn, hpassed⟩, he, hm, hc⟩ := h
  rw [hn] at ho hb
  refine ⟨⟨n + 1, by rw [hrx, hn, RingBuffer.skipped_skip], hpassed.append (cs := [b]) ?_ ?_⟩, hid.trans he, hlen.trans hm,
    hcnt.trans hc⟩
  · exact Nat.one_le_iff_ne_zero.mpr ho
  · intro j hj
    obtain rfl : j = 0 := Nat.lt_one_iff.mp hj
    exact hb

/-- How the parser of a RECEIVE for `e` and `m` returns in `t`, from the collector's end `c` (R175, R222). -/
def ParseReturned (e : Byte) (m : Nat) (c t : State) : Prop :=
  t.rxState = .idle ∧ t.answer = .received ∧ t.cnt = c.cnt ∧ t.rx.data = c.rx.data ∧
  (t.outcome = .headerError ∧ t.errorByte = 0x00#8 ∧ t.parametersOut = [] ∧ t.line = c.line ∧
      (t.rx.occupied.toNat = 0 ∨ (t.rx.occupied.toNat = 1 ∧ t.rx.peek 0 = some 0xFF#8)) ∧
      (∃ n, n ≤ c.rx.occupied.toNat ∧ t.rx = c.rx.skipped n) ∨
    (t.outcome = .generalError ∧ t.errorByte ≠ 0x00#8 ∨
        (t.outcome = .idError ∨ t.outcome = .lengthError ∨ t.outcome = .checksumError) ∧ t.errorByte = 0x00#8) ∧
      t.parametersOut = [] ∧ t.rx.readPos = 0#8 ∧ t.rx.writePos = 0#8 ∨
    t.outcome = .noError ∧ t.errorByte = 0x00#8 ∧ t.parametersOut.length = m ∧
      ∃ n, t.rx = c.rx.skipped n ∧ c.rx.Passed n (frameBytes e 0x00#8 t.parametersOut))

section
variable {e : Byte} {m k : Nat} {c u v t : State}

theorem rxRun_next (h : rxRun (k + 1) u = .next t) : ∃ v, rxTick u = .next v ∧ rxRun k v = .next t := andThen_eq_next h

/-- A state of the sequencer that ends in a return ends the run there. -/
theorem rxRun_of_idle (hidle : v.rxState = .idle) (h : rxRun k v = .next t) : t = v := by
  rw [rxRun_idle hidle] at h
  cases h
  rfl

/-- A check that fails is one of the clearing returns. -/
theorem ParseReturned.of_check {o : ErrorOutcome} {b : Byte} {bs : List Byte} (h : Parsing e m c bs u) (hrx : v.rx = u.rx.skip)
    (hcnt : v.cnt = u.cnt)
    (ho : o = .generalError ∧ b ≠ 0x00#8 ∨ (o = .idError ∨ o = .lengthError ∨ o = .checksumError) ∧ b = 0x00#8) :
    ParseReturned e m c (v.rxErrorReturn o b) := by
  obtain ⟨⟨n, hn, -⟩, -, -, hc⟩ := h
  refine ⟨rfl, rfl, hcnt.trans hc, ?_, .inr (.inl ⟨ho, rfl, rfl, rfl⟩)⟩
  rw [State.rxErrorReturn_rx, RingBuffer.clear_data, hrx, hn]
  rfl

/-- The parser's last state: a failed check, or `NoError` with the whole frame passed (R171, R172). -/
theorem parse_checksum {ps : List Byte} (hrun : rxRun (k + 1) u = .next t) (hst : u.rxState = .checksum)
    (h : Parsing e m c ([0xFF#8, 0xFF#8, e, lengthByte m, 0x00#8] ++ ps) u) (hps : u.rxPayload = ps) (hlen : ps.length = m)
    (hsum : u.rxSum = e + lengthByte m + 0x00#8 + byteSum ps) : ParseReturned e m c t := by
  obtain ⟨v, htick, hrun⟩ := rxRun_next hrun
  obtain ⟨b, ho, hb, ⟨hne, rfl⟩ | ⟨heq, rfl⟩⟩ := rxTick_checksum_next hst htick
  · rw [rxRun_of_idle rfl hrun]
    exact .of_check h rfl rfl (.inr ⟨.inr (.inr rfl), rfl⟩)
  · rw [rxRun_of_idle rfl hrun]
    obtain ⟨⟨n, hn, hpassed⟩, -, -, hcnt⟩ := h.snoc (v := { u with rx := u.rx.skip }) ho hb rfl rfl rfl rfl
    refine ⟨rfl, rfl, hcnt, by rw [State.rxReturn_rx, hn]; rfl, .inr (.inr ⟨rfl, rfl, ?_, n, hn, ?_⟩)⟩
    · rw [State.rxReturn_parametersOut, hps, hlen]
    · rw [heq, hsum] at hpassed
      rw [State.rxReturn_parametersOut, hps]
      subst hlen
      exact hpassed

/-- From `Payload` on (R170). -/
theorem parse_payload (hrun : rxRun (k + 2) u = .next t) (hst : u.rxState = .payload)
    (h : Parsing e m c [0xFF#8, 0xFF#8, e, lengthByte m, 0x00#8] u)
    (hindex : u.rxIndex = 0) (hpayload : u.rxPayload = []) (hsum : u.rxSum = e + lengthByte m + 0x00#8) :
    ParseReturned e m c t := by
  obtain ⟨v, htick, hrun⟩ := rxRun_next hrun
  have hread := rxTick_payload_next hst htick
  rw [hindex, h.paramLen, Nat.sub_zero] at hread
  obtain ⟨hfit, hv, ps, hps, hlen, hvsum, hpeek⟩ := rxReadPayload_next hread
  obtain ⟨⟨n, hn, hpassed⟩, he, hm, hc⟩ := h
  rw [hn, ← hlen] at hfit
  rw [hn, ← hlen] at hpeek
  have hparsing : Parsing e m c ([0xFF#8, 0xFF#8, e, lengthByte m, 0x00#8] ++ ps) v := by
    refine ⟨⟨n + ps.length, ?_, hpassed.append hfit fun j hj => (hpeek j hj).symm⟩, ?_, ?_, ?_⟩
    · rw [hv, hn, RingBuffer.skipped_skipped, hlen]
    · rw [hv]; exact he
    · rw [hv]; exact hm
    · rw [hv]; exact hc
  refine parse_checksum hrun (by rw [hv]) hparsing ?_ hlen (by rw [hvsum, hsum])
  rw [hps, hpayload, List.nil_append]

/-- From `Error` on (R169). -/
theorem parse_error (hrun : rxRun (k + 3) u = .next t) (hst : u.rxState = .error)
    (h : Parsing e m c [0xFF#8, 0xFF#8, e, lengthByte m] u) (hsum : u.rxSum = e + lengthByte m) : ParseReturned e m c t := by
  obtain ⟨v, htick, hrun⟩ := rxRun_next hrun
  obtain ⟨b, ho, hb, ⟨hne, rfl⟩ | ⟨heq, rfl⟩⟩ := rxTick_error_next hst htick
  · rw [rxRun_of_idle rfl hrun]
    exact .of_check h rfl rfl (.inl ⟨rfl, hne⟩)
  · subst heq
    exact parse_payload hrun rfl (h.snoc ho hb rfl rfl rfl rfl) rfl rfl (by rw [← hsum])

/-- From `Length` on (R168). -/
theorem parse_length (hm : m ≤ 249) (hrun : rxRun (k + 4) u = .next t) (hst : u.rxState = .length)
    (h : Parsing e m c [0xFF#8, 0xFF#8, e] u) (hsum : u.rxSum = e) : ParseReturned e m c t := by
  obtain ⟨v, htick, hrun⟩ := rxRun_next hrun
  obtain ⟨b, ho, hb, ⟨hne, rfl⟩ | ⟨heq, rfl⟩⟩ := rxTick_length_next hst htick
  · rw [rxRun_of_idle rfl hrun]
    exact .of_check h rfl rfl (.inr ⟨.inr (.inl rfl), rfl⟩)
  · have hbyte : b = lengthByte m := BitVec.eq_of_toNat_eq (by rw [lengthByte_toNat (by omega), heq, h.paramLen, Nat.add_comm])
    subst hbyte
    exact parse_error hrun rfl (h.snoc ho hb rfl rfl rfl rfl) (by rw [← hsum])

/-- From `Id` on (R167). -/
theorem parse_id (hm : m ≤ 249) (hrun : rxRun (k + 5) u = .next t) (hst : u.rxState = .id)
    (h : Parsing e m c [0xFF#8, 0xFF#8] u) : ParseReturned e m c t := by
  obtain ⟨v, htick, hrun⟩ := rxRun_next hrun
  obtain ⟨b, ho, hb, ⟨hne, rfl⟩ | ⟨heq, rfl⟩⟩ := rxTick_id_next hst htick
  · rw [rxRun_of_idle rfl hrun]
    exact .of_check h rfl rfl (.inr ⟨.inl rfl, rfl⟩)
  · have hbyte : b = e := heq.trans h.expectedId
    subst hbyte
    exact parse_length hm hrun rfl (h.snoc ho hb rfl rfl rfl rfl) rfl

/-- From `Sync` on, where the collector ends (R165, R166). -/
theorem parse_sync (hm : m ≤ 249) (hrun : rxRun (k + 6) c = .next t) (hst : c.rxState = .sync) (he : c.rxExpectedId = e)
    (hlen : c.rxParamLen = m) : ParseReturned e m c t := by
  obtain ⟨v, htick, hrun⟩ := rxRun_next hrun
  obtain ⟨n, hn, ⟨htwo, hfirst, hsecond, rfl⟩ | ⟨rfl, hleft⟩⟩ := rxScan_next (rxTick_sync_next hst htick) rfl
  · refine parse_id hm hrun rfl ⟨⟨n, rfl, htwo, hn, fun j hj => ?_⟩, he, hlen, rfl⟩
    match j, hj with
    | 0, _ => exact hfirst
    | 1, _ => rw [show n - 1 = n - 2 + 1 by omega] at hsecond; exact hsecond
  · rw [rxRun_of_idle rfl hrun]
    exact ⟨rfl, rfl, rfl, rfl, .inl ⟨rfl, rfl, rfl, rfl, hleft, n, hn, rfl⟩⟩

end

/-- How a collector that does not see all its bytes returns (R163). -/
def TimeoutReturned (t : State) : Prop :=
  t.outcome = .timeout ∧ t.rxState = .idle ∧ t.answer = .received ∧ t.cnt = 0#16 ∧ t.errorByte = 0x00#8 ∧
  t.parametersOut = [] ∧ t.rx.readPos = 0#8 ∧ t.rx.writePos = 0#8

/-- What every RECEIVE that ends in a state has done, from any state: it has taken the next arrivals of the line into `rx`; fewer
than were owed, and returned `Timeout`, or all, and returned what the parser found (R161 to R175). -/
theorem receive_next {e : Byte} {m : Nat} {s t : State} (h : receive e m s = .next t) :
    ∃ as more, s.line.incoming = as ++ more ∧ as.length ≤ s.cnt.toNat ∧ t.rx.data = (s.rxWith as).data ∧
      (TimeoutReturned t ∨
        as.length = s.cnt.toNat ∧ ∃ c, c.rx = s.rxWith as ∧ c.cnt = 0#16 ∧ c.line = { s.line with incoming := more } ∧
          ParseReturned e m c t) := by
  have hm := receive_domain h
  rw [receive_eq hm] at h
  obtain ⟨c, hcollect, hrun⟩ := rxRun_next h
  obtain ⟨as, more, hline, hle, hdata, htook⟩ := rxCollect_took hcollect
  obtain ⟨-, hframe, hend⟩ := rxCollect_next hcollect
  refine ⟨as, more, hline, hle, ?_⟩
  rcases hend with ⟨hsync, hcnt, -⟩ | ⟨hidle, hcnt, ho, he, hp, ha, hr, hw⟩
  · have hzero : c.cnt = 0#16 := by
      rw [hcnt, BitVec.ofNat_toNat, BitVec.setWidth_eq, BitVec.sub_self]
    obtain ⟨-, hall, hrx, hcline⟩ := htook.resolve_right fun hidle => by rw [hsync] at hidle; cases hidle.1
    have hparsed : ParseReturned e m c t := parse_sync hm hrun hsync (by rw [hframe]; rfl) (by rw [hframe]; rfl)
    refine ⟨?_, .inr ⟨hall, c, hrx, hzero, hcline, hparsed⟩⟩
    obtain ⟨-, -, -, hsame, -⟩ := hparsed
    rw [hsame, hrx]; rfl
  · rw [rxRun_of_idle hidle hrun]
    exact ⟨hdata, .inl ⟨ho, hidle, ha, hcnt, he, hp, hr, hw⟩⟩

/-- Settles O50: the table, read off the ways a RECEIVE can return. -/
theorem receiveResultTable : Obligations.ReceiveResultTable := by
  unfold Obligations.ReceiveResultTable
  intro e m s t h
  obtain ⟨as, more, hline, -, -, ⟨ho, hidle, ha, hcnt, he, hp, hr, hw⟩ | ⟨hall, c, hrx, hzero, -, hparsed⟩⟩ :=
    receive_next h
  · refine ⟨hcnt, hidle, ha, ?_⟩
    rw [ho]
    exact ⟨he, hp, hr, hw⟩
  · obtain ⟨hidle, ha, hcnt, -, hreturn⟩ := hparsed
    refine ⟨hcnt.trans hzero, hidle, ha, ?_⟩
    rw [hrx] at hreturn
    rcases hreturn with
      ⟨ho, he, hp, -, hleft, n, hn, hmoved⟩ | ⟨ho, hp, hr, hw⟩ | ⟨ho, he, hp, n, hmoved, hlen, hn, hframe⟩
    · rw [ho]
      exact ⟨he, hp, hleft, as, more, n, hline, hall, hn, hmoved⟩
    · rcases ho with ⟨ho, he⟩ | ⟨ho | ho | ho, he⟩ <;> rw [ho] <;> exact ⟨he, hp, hr, hw⟩
    · rw [frameBytes_length, hp] at hlen hframe
      rw [ho]
      exact ⟨he, hp, as, more, n, hline, hall, hlen, hn, hmoved, hframe⟩

/-- Settles O51: the same ways of returning, with the frame of RECEIVE. -/
theorem errorReturnEffects : Obligations.ErrorReturnEffects := by
  unfold Obligations.ErrorReturnEffects
  intro e m s t h herror
  obtain ⟨htx, hst, hcaller⟩ := receive_keeps h
  obtain ⟨as, more, hline, hle, hdata, ⟨ho, hidle, -, hcnt, -, -, hr, hw⟩ | ⟨hall, c, hrx, hzero, hcline, hparsed⟩⟩ :=
    receive_next h
  · refine ⟨hidle, hcnt, htx, hst, hcaller, as, more, hline, hle, hdata, fun _ => ⟨hr, hw⟩, fun hheader => ?_⟩
    rw [ho] at hheader
    cases hheader
  · obtain ⟨hidle, -, hcnt, -, hreturn⟩ := hparsed
    refine ⟨hidle, hcnt.trans hzero, htx, hst, hcaller, as, more, hline, hle, hdata, ?_⟩
    rw [hrx] at hreturn
    rcases hreturn with ⟨ho, -, -, hl, -, n, hn, hmoved⟩ | ⟨ho, -, hr, hw⟩ | ⟨ho, -⟩
    · exact ⟨fun hne => absurd ho hne, fun _ => ⟨hall, hl.trans hcline, n, hn, hmoved⟩⟩
    · refine ⟨fun _ => ⟨hr, hw⟩, fun hheader => ?_⟩
      rw [hheader] at ho
      simp at ho
    · exact absurd ho herror

end Sys2Proof.Machine

/-! PROOFS. Steps of the machine: what they run, keep and never meet (00_scope.md R4, R8; 10_state.md R24, R35; 43_receive.md
R175; 70_reset_and_hazards.md R250, R251). -/

namespace Sys2Proof.Machine

/-! ### Reset (R35, R250) -/

/-- Settles O1: the reset state is written out with these values. -/
theorem resetState : Obligations.ResetState := by
  unfold Obligations.ResetState
  exact ⟨rfl, rfl, rfl, rfl, rfl, rfl, rfl, fun _ => rfl, fun _ => rfl⟩

/-- Settles O2: buffers out of reset are in order, and nothing is in progress, owed or reported. -/
theorem resetMeetsInvariants : Obligations.ResetMeetsInvariants := by
  unfold Obligations.ResetMeetsInvariants
  exact ⟨⟨RingBuffer.sound_reset, RingBuffer.sound_reset, Nat.zero_le _, rfl, .inl rfl, fun _ => rfl⟩,
    iff_of_false (fun h => h rfl) ErrorOutcome.noConfusion, fun h => absurd rfl h⟩

/-! ### One step (R4, R55, R250) -/

/-- Settles O6: a step is `exec` of the decoded command and then the port's rule for it. -/
theorem stepRunsDecoded : Obligations.StepRunsDecoded := by
  unfold Obligations.StepRunsDecoded
  intro s w rest i hc hd
  rw [step_command hc hd]
  cases exec i s <;> rfl

/-- Settles O7: the law of a step with no command on the port. -/
theorem idleBlockWaits : Obligations.IdleBlockWaits := by
  unfold Obligations.IdleBlockWaits
  exact fun s => step_no_command

/-- Settles O9: the decoder evaluated on each word. -/
theorem someWordsDecode : Obligations.SomeWordsDecode := by
  unfold Obligations.SomeWordsDecode
  decide

/-- A step that ends in a fault has met it in the instruction on the port. -/
theorem step_fault {s : State} {f : Fault} (h : step s = .fault f) : ∃ i, exec i s = .fault f := by
  rcases hc : s.caller with _ | ⟨w, rest⟩
  · rw [step_no_command hc] at h; cases h
  · cases hd : decode w with
    | error why => rw [step_decode_error hc hd] at h; cases h
    | ok i =>
      rw [step_command hc hd] at h
      cases hi : exec i s with
      | next u => rw [hi] at h; cases h
      | fault f' => rw [hi] at h; cases h; exact ⟨i, hi⟩
      | refused r => rw [hi] at h; cases h

/-! ### What one instruction can do -/

/-- What an instruction that ends in a state has done: a TRANSMIT, a RECEIVE, or an operation that completes with an answer and
has moved at most one buffer, leaving it in order where it was (R83, R100 to R143, R160). -/
theorem exec_next {i : Instr} {s u : State} (h : exec i s = .next u) :
    (∃ t code ps, request i = some (t, code, ps) ∧ transmit t code ps s = .next u) ∨
    (∃ e m, i = .receive e m ∧ receive e m s = .next u) ∨
    ∃ a, u = s.answering a ∨
      ∃ buf b, u = (s.withBuffer buf b).answering a ∧ ((s.buffer buf).Sound → b.Sound) := by
  cases hi : request i with
  | some p =>
    obtain ⟨t, code, ps⟩ := p
    exact .inl ⟨t, code, ps, rfl, (exec_request hi s).symm.trans h⟩
  | none =>
    refine .inr ?_
    cases i with
    | receive e m => exact .inl ⟨e, m, rfl, h⟩
    | checksum | rbOccupied | rbFree => cases h; exact .inr ⟨_, .inl rfl⟩
    | frame id instruction ps =>
      simp only [exec, execFrame] at h
      split at h <;> cases h
      exact .inr ⟨_, .inl rfl⟩
    | rbPush buf x =>
      obtain ⟨hne, rfl⟩ := exec_rbPush_next h
      exact .inr ⟨_, .inr ⟨buf, _, rfl, fun hs => hs.push x hne⟩⟩
    | rbPop buf =>
      obtain ⟨hne, x, rfl⟩ := exec_rbPop_next h
      exact .inr ⟨_, .inr ⟨buf, _, rfl, fun hs => hs.skip hne⟩⟩
    | rbClear buf => cases h; exact .inr ⟨_, .inr ⟨buf, _, rfl, fun hs => hs.clear⟩⟩
    | ping | readData | writeData | regWrite | action | reset | syncWrite | syncRegWrite | transmit => cases hi

/-- No instruction touches the caller's commands. -/
theorem exec_caller {i : Instr} {s u : State} (h : exec i s = .next u) : u.caller = s.caller := by
  rcases exec_next h with ⟨t, code, ps, -, h⟩ | ⟨e, m, -, h⟩ | ⟨a, rfl | ⟨buf, b, rfl, -⟩⟩
  · obtain ⟨hu, -⟩ := transmit_frame h
    rw [hu]
  · obtain ⟨-, -, hcaller⟩ := receive_keeps h
    exact hcaller
  · rfl
  · rw [State.answering_caller, State.withBuffer_caller]

/-! ### The invariant (R24, R25, R27, R28, R251) -/

theorem State.retire_inv {s : State} : s.retire.Inv ↔ s.Inv := by
  unfold State.retire
  split <;> exact Iff.rfl

/-- A drain keeps the invariant (R135). -/
theorem txDrain_inv {s u : State} (hs : s.Inv) (hst : s.txState = .drain) (h : txDrain s.tx.occupied.toNat s = .next u) :
    u.Inv := by
  obtain ⟨htx, hrx, hcnt, hidle, -, -⟩ := hs
  obtain ⟨j, bs, hj, hend, hu⟩ := txDrain_next h
  have hend : u.txState = .idle ∨ u.txState = .drain := hend.imp And.left fun h => h.trans hst
  refine ⟨?_, ?_, ?_, ?_, by tauto, fun hw => ?_⟩
  · rw [hu]; exact htx.skipped hj
  · rw [hu]; exact hrx
  · rw [hu]; exact hcnt
  · rw [hu]; exact hidle
  · rw [hw] at hend; simp at hend

/-- A TRANSMIT keeps the invariant: held, it stands in one of its waits, and past its push it has drained or stands in `Drain`. -/
theorem transmit_inv {t code : Byte} {ps : List Byte} {s u : State} (hs : s.Inv) (h : transmit t code ps s = .next u) :
    u.Inv := by
  have hinv := hs
  obtain ⟨htx, hrx, hcnt, hidle, hst, hspace⟩ := hs
  rcases transmit_next hst hspace h with ⟨-, rfl⟩ | ⟨hc, rfl⟩ | ⟨hc, r, tx, hr, hp, hdrain⟩ | ⟨hst, hdrain⟩
  · exact ⟨htx, hrx, hcnt, hidle, .inr (.inl rfl), TxState.noConfusion⟩
  · exact ⟨htx, hrx, hcnt, hidle, .inr (.inr (.inl rfl)), fun _ => hc⟩
  · have hraised : (s.cnt + BitVec.ofNat 16 r).toNat ≤ Config.maxCounter := by
      rw [hc, BitVec.zero_add, expectedReply_toNat hr]
      exact expectedReply_le hr
    refine txDrain_inv (s := { s with tx := tx, cnt := s.cnt + BitVec.ofNat 16 r, txState := .drain }) ?_ rfl hdrain
    exact ⟨htx.pushAll hp, hrx, hraised, hidle, .inr (.inr (.inr rfl)), TxState.noConfusion⟩
  · exact txDrain_inv hinv hst hdrain

/-- What every RECEIVE that returns leaves of the counter and the sequencer (R175). -/
theorem receive_rests {e : Byte} {m : Nat} {s t : State} (h : receive e m s = .next t) :
    t.cnt = 0#16 ∧ t.rxState = .idle := by
  obtain ⟨as, more, -, -, -, ⟨-, hidle, -, hcnt, -⟩ | ⟨-, c, -, hzero, -, hidle, -, hcnt, -⟩⟩ := receive_next h
  · exact ⟨hcnt, hidle⟩
  · exact ⟨hcnt.trans hzero, hidle⟩

/-- A RECEIVE keeps the invariant: it leaves the counter zero, its sequencer idle, and `rx` in order. -/
theorem receive_inv {e : Byte} {m : Nat} {s t : State} (hs : s.Inv) (h : receive e m s = .next t) : t.Inv := by
  obtain ⟨htx, hrx, hcnt, -, hst, -⟩ := hs
  obtain ⟨hzero, hidle⟩ := receive_rests h
  obtain ⟨htx', hst', -⟩ := receive_keeps h
  have hsound : t.rx.Sound := by
    rw [receive_eq (receive_domain h)] at h
    exact rxRun_keeps (P := fun u => u.rx.Sound) (s := s.rxStart e m) (fun u v => rxTick_sound) hrx h
  refine ⟨?_, hsound, ?_, hidle, ?_, fun _ => hzero⟩
  · rw [htx']; exact htx
  · rw [hzero]; exact Nat.zero_le _
  · rw [hst']; exact hst

theorem exec_inv {i : Instr} {s u : State} (hs : s.Inv) (h : exec i s = .next u) : u.Inv := by
  rcases exec_next h with ⟨t, code, ps, -, h⟩ | ⟨e, m, -, h⟩ | ⟨a, rfl | ⟨buf, b, rfl, hb⟩⟩
  · exact transmit_inv hs h
  · exact receive_inv hs h
  · exact hs
  · obtain ⟨htx, hrx, hrest⟩ := hs
    cases buf with
    | tx => exact ⟨hb htx, hrx, hrest⟩
    | rx => exact ⟨htx, hb hrx, hrest⟩

/-- Settles O3: the instruction on the port keeps the invariant, and so does the port's rule for its command. -/
theorem stepKeepsInvariant : Obligations.StepKeepsInvariant := by
  unfold Obligations.StepKeepsInvariant
  intro s t hs h
  rcases step_next h with ⟨-, rfl⟩ | ⟨w, rest, i, u, -, -, hexec, rfl⟩
  · exact hs
  · exact State.retire_inv.mpr (exec_inv hs hexec)

/-- Settles O8: by the invariant after the instruction its sequencers are both idle, and the command is dropped, or TRANSMIT stands
in a wait, and the command stays. -/
theorem commandCompletesOrIsHeld : Obligations.CommandCompletesOrIsHeld := by
  unfold Obligations.CommandCompletesOrIsHeld
  intro s t w rest hs hc h
  rcases step_next h with ⟨hnone, -⟩ | ⟨w', rest', i, u, -, -, hexec, rfl⟩
  · rw [hc] at hnone; cases hnone
  · obtain ⟨-, -, -, hidle, hst, -⟩ := exec_inv hs hexec
    have hcaller : u.caller = w :: rest := (exec_caller hexec).trans hc
    by_cases hdone : u.txState = .idle
    · rw [State.retire, if_pos ⟨hdone, hidle⟩]
      exact ⟨hidle, .inl ⟨hdone, congrArg List.tail hcaller⟩⟩
    · rw [State.retire, if_neg fun hboth => hdone hboth.1]
      exact ⟨hidle, .inr ⟨hst.resolve_left hdone, hcaller⟩⟩

/-! ### The result registers (R175) -/

/-- A RECEIVE that returns leaves its results in the form of the table. -/
theorem receive_resultsInv {e : Byte} {m : Nat} {s t : State} (h : receive e m s = .next t) : t.ResultsInv := by
  obtain ⟨as, more, -, -, -, ⟨ho, -, -, -, he, hp, -⟩ | ⟨-, c, -, -, -, -, -, -, -, hreturn⟩⟩ := receive_next h
  · simp [State.ResultsInv, ho, he, hp]
  · rcases hreturn with ⟨ho, he, hp, -⟩ | ⟨⟨ho, he⟩ | ⟨ho | ho | ho, he⟩, hp, -⟩ | ⟨ho, he, -⟩ <;>
      simp [State.ResultsInv, *]

/-- Settles O4: only RECEIVE writes the result registers. -/
theorem stepKeepsResultForm : Obligations.StepKeepsResultForm := by
  unfold Obligations.StepKeepsResultForm
  intro s t hs h
  rcases step_next h with ⟨-, rfl⟩ | ⟨w, rest, i, u, -, -, hexec, rfl⟩
  · exact hs
  have hu : u.ResultsInv := by
    rcases exec_next hexec with ⟨t, code, ps, -, h⟩ | ⟨e, m, -, h⟩ | ⟨a, rfl | ⟨buf, b, rfl, -⟩⟩
    · obtain ⟨hu, -⟩ := transmit_frame h
      rw [hu]; exact hs
    · exact receive_resultsInv h
    · exact hs
    · cases buf <;> exact hs
  unfold State.retire
  split <;> exact hu

/-! ### Unwritten cells (R251) -/

theorem rxNext_written {s : State} {buf : Buf} {k : Byte → State → Result} (hs : s.rx.Sound)
    (hk : s.rx.occupied.toNat ≠ 0 → ∀ b, k b { s with rx := s.rx.skip } ≠ .fault (.cellUnwritten buf)) :
    rxNext s k ≠ .fault (.cellUnwritten buf) := by
  unfold rxNext
  split
  · simp
  · rename_i hne
    have hocc : s.rx.occupied.toNat ≠ 0 := fun hz => hne (BitVec.eq_of_toNat_eq hz)
    obtain ⟨b, hb⟩ := hs.peek_some (Nat.pos_of_ne_zero hocc)
    simp only [RingBuffer.pop_eq, hb, Option.map_some]
    exact hk hocc b

theorem rxReadPayload_written {n : Nat} {s : State} {buf : Buf} (hs : s.rx.Sound) :
    rxReadPayload n s ≠ .fault (.cellUnwritten buf) := by
  induction n generalizing s with
  | zero => simp [rxReadPayload]
  | succ n ih => exact rxNext_written hs fun hocc b => ih (hs.skip hocc)

/-- No state of RECEIVE reads an unwritten cell of a buffer in order (R251). -/
theorem rxTick_written {s : State} {buf : Buf} (hs : s.rx.Sound) : rxTick s ≠ .fault (.cellUnwritten buf) := by
  unfold rxTick
  split
  · simp
  · exact fun h => nomatch rxCollect_fault h
  · exact rxScan_sound hs rfl
  · exact rxNext_written hs fun _ _ => by simp
  · exact rxNext_written hs fun _ _ => by simp
  · exact rxNext_written hs fun _ _ => by simp
  · exact rxReadPayload_written hs
  · exact rxNext_written hs fun _ _ => by simp

theorem rxRun_written {k : Nat} {s : State} {buf : Buf} (hs : s.rx.Sound) : rxRun k s ≠ .fault (.cellUnwritten buf) := by
  induction k generalizing s with
  | zero => simp [rxRun]
  | succ k ih =>
    cases h : rxTick s with
    | next u => rw [rxRun_succ h]; exact ih (rxTick_sound hs h)
    | fault f => rw [rxRun_fault h]; exact fun hf => rxTick_written hs (h.trans hf)
    | refused r => exact absurd h rxTick_refused

/-- A TRANSMIT from a state with the invariant can meet no fault but that of its last push. -/
theorem transmit_fault {t code : Byte} {ps : List Byte} {s : State} {f : Fault} (hs : s.Inv)
    (h : transmit t code ps s = .fault f) : f = .rbOverrun := by
  obtain ⟨htx, -, -, -, hst, hspace⟩ := hs
  cases ha : txAdmitted t code ps with
  | false => rw [transmit_refused_iff.mpr ha] at h; cases h
  | true =>
    rcases transmit_cases ha hst hspace with
      ⟨-, hT⟩ | ⟨-, hT⟩ | hT | ⟨-, r, tx, -, hp, hT⟩ | ⟨-, hT⟩ <;> rw [hT] at h
    · cases h
    · cases h
    · cases h; rfl
    · exact absurd h (txDrain_sound (htx.pushAll hp) rfl)
    · exact absurd h (txDrain_sound htx rfl)

theorem exec_written {i : Instr} {s : State} {buf : Buf} (hs : s.Inv) : exec i s ≠ .fault (.cellUnwritten buf) := by
  intro h
  cases hi : request i with
  | some p =>
    obtain ⟨t, code, ps⟩ := p
    exact nomatch transmit_fault hs ((exec_request hi s).symm.trans h)
  | none =>
    obtain ⟨htx, hrx, -⟩ := hs
    cases i with
    | receive e m =>
      rw [exec_receive] at h
      unfold receive at h
      split at h
      · exact rxRun_written (s := s.rxStart e m) hrx h
      · cases h
    | checksum | rbOccupied | rbFree | rbClear => cases h
    | frame id instruction ps =>
      simp only [exec, execFrame] at h
      split at h <;> cases h
    | rbPush b x =>
      by_cases hfull : (s.buffer b).occupied.toNat = 255
      · rw [exec_rbPush_full x hfull] at h; cases h
      · rw [exec_rbPush x hfull] at h; cases h
    | rbPop b =>
      have hsound : (s.buffer b).Sound := by cases b; exacts [htx, hrx]
      by_cases hempty : (s.buffer b).occupied.toNat = 0
      · rw [exec_rbPop_empty hempty] at h; cases h
      · obtain ⟨x, hx⟩ := hsound.peek_some (Nat.pos_of_ne_zero hempty)
        rw [exec_rbPop hempty hx] at h; cases h
    | ping | readData | writeData | regWrite | action | reset | syncWrite | syncRegWrite | transmit => cases hi

/-- Settles O5: with both buffers in order every cell an instruction reads has been written. -/
theorem unwrittenCellsStayUnread : Obligations.UnwrittenCellsStayUnread := by
  unfold Obligations.UnwrittenCellsStayUnread
  intro s buf hs h
  obtain ⟨i, hi⟩ := step_fault h
  exact exec_written hs hi

/-! ### The counter (R24, R25) -/

/-- A TRANSMIT from an idle sequencer leaves the counter, or finds it zero and raises it within the bound. -/
theorem transmit_cnt_le {t code : Byte} {ps : List Byte} {s u : State} (hidle : s.txState = .idle)
    (h : transmit t code ps s = .next u) : u.cnt = s.cnt ∨ s.cnt = 0#16 ∧ u.cnt.toNat ≤ 261 := by
  rcases transmit_cnt hidle h with ⟨-, -, -, hcnt⟩ | ⟨hzero, r, hr, hcnt⟩
  · exact .inl hcnt
  · refine .inr ⟨hzero, ?_⟩
    rw [hcnt, expectedReply_toNat hr]
    exact expectedReply_le hr

/-- No operation but TRANSMIT and RECEIVE touches the counter. -/
theorem exec_cnt {i : Instr} {s u : State} (hsend : request i = none) (hreceive : ∀ e m, i ≠ .receive e m)
    (h : exec i s = .next u) : u.cnt = s.cnt := by
  rcases exec_next h with ⟨t, code, ps, hi, -⟩ | ⟨e, m, hi, -⟩ | ⟨a, rfl | ⟨buf, b, rfl, -⟩⟩
  · rw [hsend] at hi; cases hi
  · exact absurd hi (hreceive e m)
  · rfl
  · rw [State.answering_cnt, State.withBuffer_cnt]

/-- Settles O58: the nine requests by what TRANSMIT does to the counter, RECEIVE by how it rests, and the others leave it. -/
theorem onlyTransceiverMovesCounter : Obligations.OnlyTransceiverMovesCounter := by
  unfold Obligations.OnlyTransceiverMovesCounter
  intro i s u hidle h
  cases i with
  | receive e m =>
    obtain ⟨hzero, -⟩ := receive_rests h
    exact hzero
  | ping | readData | writeData | regWrite | action | reset | syncWrite | syncRegWrite | transmit =>
    exact transmit_cnt_le hidle h
  | checksum | frame | rbOccupied | rbFree | rbPush | rbPop | rbClear =>
    exact exec_cnt rfl (fun _ _ => Instr.noConfusion) h

end Sys2Proof.Machine

/-! PROOFS. Whole exchanges, and the software above the block (42_transmit.md R137 with 43_receive.md R161, R172 and R178;
44_registry_syncwrite.md R204, R205). -/

namespace Sys2Proof.Machine

/-- What a completed TRANSMIT leaves, field by field (R146, R148). -/
theorem Sends.fields {old f : List Byte} {r : Nat} {s t : State} (h : Sends old f r s t) :
    t.rx = s.rx ∧ t.cnt = s.cnt + BitVec.ofNat 16 r ∧ t.txState = s.txState ∧ t.line.incoming = s.line.incoming ∧
      t.line.sent = s.line.sent ++ old ++ f ∧ t.tx.occupied = 0#8 := by
  obtain ⟨ht, -, hempty, -⟩ := h
  refine ⟨by rw [ht], by rw [ht], by rw [ht], by rw [ht], by rw [ht], ?_⟩
  rw [RingBuffer.occupied, hempty, BitVec.sub_self]

theorem ReadyToSend.txState {old : List Byte} {n : Nat} {s : State} (h : ReadyToSend old n s) : s.txState = .idle := h.1

theorem ReadyToSend.cnt {old : List Byte} {n : Nat} {s : State} (h : ReadyToSend old n s) : s.cnt = 0#16 := h.2.1

/-- RECEIVE of a frame that the line delivers in time, whole and alone, into an empty `rx` (R161, R172, R178). -/
theorem receive_delivered_frame {e : Byte} {payload : List Byte} {as more : List Arrival} {s : State}
    (hlen : payload.length ≤ 249) (hcnt : s.cnt.toNat = payload.length + 6) (hempty : s.rx.occupied = 0#8)
    (hline : s.line.Delivers as more) (hbytes : as.map Arrival.byte = frameBytes e 0x00#8 payload) :
    ∃ u, receive e payload.length s = .next u ∧ u.outcome = .noError ∧ u.errorByte = 0x00#8 ∧ u.parametersOut = payload ∧
      u.cnt = 0#16 ∧ u.tx = s.tx ∧ u.rx.occupied = 0#8 ∧ u.line = { s.line with incoming := more } := by
  have hcount : as.length = payload.length + 6 := by rw [← List.length_map Arrival.byte, hbytes, frameBytes_length]
  have hzero : s.rx.occupied.toNat = 0 := by rw [hempty]; rfl
  have hfit : s.rx.occupied.toNat + as.length ≤ 255 := by omega
  have hcollected := State.collected_cnt more (hcnt.trans hcount.symm)
  have hholds := State.collected_holds more (RingBuffer.holds_nil hzero) hfit
  rw [hbytes, List.nil_append] at hholds
  have hrun := (receive_collected (hcnt.trans hcount.symm) hline hfit).trans
    (receive_noError hlen (State.atMarker_frame hcollected hholds))
  refine ⟨_, hrun, rfl, rfl, rfl, hcollected, rfl, ?_, rfl⟩
  apply BitVec.eq_of_toNat_eq
  rw [RingBuffer.skipped_occupied_toNat] <;> rw [hholds.1, frameBytes_length] <;> simp

/-- Settles O57: the request goes out and leaves owed exactly the bytes of the device's frame, which RECEIVE collects and
parses. -/
theorem readExchangeReturnsPayload : Obligations.ReadExchangeReturnsPayload := by
  unfold Obligations.ReadExchangeReturnsPayload
  intro t first count payload as more s ht hunicast hcount hlen hready hempty hline hbytes
  have hnone := hready.cnt
  have hr := (expectedReply_unicast _ _ hunicast).trans (replyBytes_readData first count [])
  obtain ⟨u, hsent, hsends⟩ :=
    exec_request_sends (i := .readData t [first, count]) rfl ht (by simp) hr hready
  obtain ⟨hrx, hcnt, -, hincoming, hrecord, htx⟩ := hsends.fields
  have howed : u.cnt.toNat = payload.length + 6 := by
    rw [hcnt, hnone, BitVec.zero_add, expectedReply_toNat hr, hlen, Nat.add_comm]
  have hdelivers : u.line.Delivers as more := ⟨hincoming.trans hline.1, hline.2⟩
  obtain ⟨v, hreceived, ho, he, hp, hzero, hvtx, hvrx, hvline⟩ :=
    receive_delivered_frame (by omega) howed (hrx ▸ hempty) hdelivers hbytes
  rw [hlen] at hreceived
  refine ⟨u, v, hsent, hreceived, ?_, ho, he, hp, hzero, by rw [hvtx, htx], hvrx, by rw [hvline]⟩
  rw [hvline, hrecord, List.append_nil]

/-- A broadcast request from a ready state with an empty `tx` sends exactly its frame, owes nothing and leaves the receiver. -/
theorem transmit_broadcast_sends {code : Byte} {ps : List Byte} {s : State} (hlen : ps.length ≤ 249)
    (hready : ReadyToSend [] ps.length s) :
    ∃ t, exec (.transmit 0xFE#8 code ps) s = .next t ∧ t.txState = .idle ∧ t.cnt = 0#16 ∧
      t.line.sent = s.line.sent ++ frameBytes 0xFE#8 code ps ∧ t.rx = s.rx ∧ t.line.incoming = s.line.incoming := by
  obtain ⟨t, hsent, hsends⟩ :=
    exec_request_sends (i := .transmit 0xFE#8 code ps) rfl (by decide) hlen (expectedReply_broadcast code ps) hready
  obtain ⟨hrx, hcnt, hst, hincoming, hrecord, -⟩ := hsends.fields
  refine ⟨t, hsent, hst.trans hready.txState, ?_, ?_, hrx, hincoming⟩
  · rw [hcnt, hready.cnt]; rfl
  · rw [hrecord, List.append_nil]

/-- Settles O59: `broadcastWrite` is one broadcast request. -/
theorem broadcastWriteOwesNothing : Obligations.BroadcastWriteOwesNothing := by
  unfold Obligations.BroadcastWriteOwesNothing
  intro ps s hlen hready
  obtain ⟨t, hsent, -, hrest⟩ := transmit_broadcast_sends (code := writeDataCode) hlen hready
  exact ⟨t, hsent, hrest⟩

/-- Settles O60: the span and the blocks of the range exist, and what is sent is one broadcast request with them. -/
theorem buildAndSendSyncWrite : Obligations.BuildAndSendSyncWrite := by
  unfold Obligations.BuildAndSendSyncWrite
  intro offsetOf first last k ds s hspan hbyte hmirrors hlen hready
  obtain ⟨blocks, hblocks, hsize, hdevice⟩ := deviceBlocks_eq hmirrors
  have hcount : ([first, BitVec.ofNat 8 k] ++ blocks).length = 2 + ds.length * (1 + k) := by
    rw [List.length_append, hsize]; rfl
  rw [← hcount] at hlen hready
  obtain ⟨t, hsent, hidle, hrest⟩ := transmit_broadcast_sends (code := syncWriteCode) hlen hready
  refine ⟨t, [first, BitVec.ofNat 8 k] ++ blocks, ?_, hcount, rfl, fun j d hd => ?_, hrest⟩
  · rw [buildAndSend, emittedSpan_eq_some.mpr ⟨hspan, hbyte⟩, CallResult.ofRange_some, CallResult.andThen_returned, hblocks,
      CallResult.ofRange_some, CallResult.andThen_returned]
    exact CallResult.ofExec_next hsent hidle
  · rw [← List.drop_drop]
    exact hdevice j d hd

end Sys2Proof.Machine
